-- ==== Sys2Proof/Config.lean ====
section
/-!
DEFINITION. What the implementation fixes: the parameters of rule R6 of `00_scope.md` that are constants of this
hardware. The two parameters marked OPEN there, `TargetPolicy` and `CondPolicy`, are functions of the state: their types
stand in Machine/Operands.lean and Machine/Flags.lean, and Machine/Policies.lean takes them as arguments.
No value of this machine is left undefined by its spec, so there is no free value here.
-/

namespace Sys2Proof.Config

/-- R6: decimal digits of a primary word. -/
def wordDigits : Nat := 12

/-- R6: decimal digits of a secondary word. -/
def secDigits : Nat := 11

/-- R6, R7: the bound P12 = 10^12 - 1 of a primary word. -/
def p12 : Int := 999999999999

/-- R6, R7: the bound P11 = 10^11 - 1 of a secondary word. -/
def p11 : Int := 99999999999

/-- R6: the grid has ten tens positions. -/
def memTens : Nat := 10

/-- R6: the grid has ten ones positions. -/
def memOnes : Nat := 10

/-- R6: eight pinboard slots, numbered 1 to 8. -/
abbrev numSlots : Nat := 8

/-- R6 `PINBOARD_CAPACITY`: positions 0 to 15. PRESUMED (unsafe): the spec itself marks the number 16 as general
knowledge and allows any N of at least 1; assumption log 4. -/
abbrev capacity : Nat := 16

end Sys2Proof.Config
end

