-- ==== Sys2Proof/Word.lean ====
section
/-!
DEFINITION. The number types of rule R7 of `00_scope.md`, and the closed vocabularies an instruction is written in
(rules R71 to R73 of `30_encoding.md`). A word is a mathematical integer inside a closed range (R7, R54): there is no bit
pattern in the data path, so a word is an `Int` and its range a predicate.
-/

namespace Sys2Proof

/-- R7 `Word12`, R21: the range of a primary word. -/
abbrev InWord12 (v : Int) : Prop := -Config.p12 ≤ v ∧ v ≤ Config.p12

/-- R7 `Word11`, R22: the range of a secondary word. -/
abbrev InWord11 (v : Int) : Prop := -Config.p11 ≤ v ∧ v ≤ Config.p11

/-- R7 `Digit`: one decimal digit, the content of a control register (R23; R6 `CTL_MAX` is 9). -/
abbrev Digit := Fin 10

/-- R36: the sense-switch word type the document lists. No state and no rule of the block uses it. -/
abbrev Sense4 := Fin 16

/-- R71: the closed set of 14 opcodes, in the document's order. -/
inductive Opcode where
  | keyboard | write | read | accToSec | print | add | sub | mul | div
  | alter | transfer | condTransfer | home | stepBy
deriving DecidableEq, Repr

/-- R72: the tens vocabulary: a literal 0 to 9 (R6 `TENS_LIT_MAX`), or a placeholder for control register E or X. -/
inductive TensDigit where
  | lit (d : Fin 10)
  | regE
  | regX
deriving DecidableEq, Repr

/-- R73: the ones vocabulary: a literal 0 to 15 (R6 `ONES_LIT_MAX`), a placeholder for control register E, F or Y, or one of the two
unresolved symbols `*` (star) and `V` (vee). -/
inductive OnesDigit where
  | lit (n : Fin 16)
  | regE
  | regF
  | regY
  | star
  | vee
deriving DecidableEq, Repr

/-- R23: the names of the four control registers. -/
inductive CtlReg where
  | e | f | x | y
deriving DecidableEq, Repr

end Sys2Proof
end

