-- ==== Sys2Proof/Syntax.lean ====
section
/-!
DEFINITION. The instruction of rule R70 of `30_encoding.md`: one constructor per row of spec/opcode_table.json, each with
an optional tens and an optional ones digit. All four presence combinations are representable (R70); which of them an
opcode takes is WellFormed.lean's question (R77).
-/

namespace Sys2Proof

/-- R70, R71: an instruction is the triple (op, tens, ones); the constructor is the op. -/
inductive Instr where
  | keyboard     (t : Option TensDigit) (o : Option OnesDigit)
  | write        (t : Option TensDigit) (o : Option OnesDigit)
  | read         (t : Option TensDigit) (o : Option OnesDigit)
  | accToSec     (t : Option TensDigit) (o : Option OnesDigit)
  | print        (t : Option TensDigit) (o : Option OnesDigit)
  | add          (t : Option TensDigit) (o : Option OnesDigit)
  | sub          (t : Option TensDigit) (o : Option OnesDigit)
  | mul          (t : Option TensDigit) (o : Option OnesDigit)
  | div          (t : Option TensDigit) (o : Option OnesDigit)
  | alter        (t : Option TensDigit) (o : Option OnesDigit)
  | transfer     (t : Option TensDigit) (o : Option OnesDigit)
  | condTransfer (t : Option TensDigit) (o : Option OnesDigit)
  | home         (t : Option TensDigit) (o : Option OnesDigit)
  | stepBy       (t : Option TensDigit) (o : Option OnesDigit)
deriving DecidableEq, Repr

/-- R70: the first part of the triple. -/
def Instr.op : Instr → Opcode
  | .keyboard _ _ => .keyboard
  | .write _ _ => .write
  | .read _ _ => .read
  | .accToSec _ _ => .accToSec
  | .print _ _ => .print
  | .add _ _ => .add
  | .sub _ _ => .sub
  | .mul _ _ => .mul
  | .div _ _ => .div
  | .alter _ _ => .alter
  | .transfer _ _ => .transfer
  | .condTransfer _ _ => .condTransfer
  | .home _ _ => .home
  | .stepBy _ _ => .stepBy

/-- R70: the second part of the triple. -/
def Instr.tens : Instr → Option TensDigit
  | .keyboard t _ | .write t _ | .read t _ | .accToSec t _ | .print t _ | .add t _ | .sub t _
  | .mul t _ | .div t _ | .alter t _ | .transfer t _ | .condTransfer t _ | .home t _ | .stepBy t _ => t

/-- R70: the third part of the triple. -/
def Instr.ones : Instr → Option OnesDigit
  | .keyboard _ o | .write _ o | .read _ o | .accToSec _ o | .print _ o | .add _ o | .sub _ o
  | .mul _ o | .div _ o | .alter _ o | .transfer _ o | .condTransfer _ o | .home _ o | .stepBy _ o => o

/-- R70: the instruction with the three given parts. -/
def Instr.ofParts (op : Opcode) (t : Option TensDigit) (o : Option OnesDigit) : Instr :=
  match op with
  | .keyboard => .keyboard t o
  | .write => .write t o
  | .read => .read t o
  | .accToSec => .accToSec t o
  | .print => .print t o
  | .add => .add t o
  | .sub => .sub t o
  | .mul => .mul t o
  | .div => .div t o
  | .alter => .alter t o
  | .transfer => .transfer t o
  | .condTransfer => .condTransfer t o
  | .home => .home t o
  | .stepBy => .stepBy t o

end Sys2Proof
end

