-- ==== Sys2Proof/WellFormed.lean ====
section
/-!
DEFINITION. Which operand combinations each opcode takes: the shape table of rule R77 of `30_encoding.md`. The ranges of
the digits themselves (R72, R73) need no check: a digit outside its vocabulary is no term of `TensDigit` or `OnesDigit`,
as R78 (d) asks. An instruction that is not well formed is still an instruction: it parses, is stored and written by `A`,
and raises MissingInstruction/Uncovered when executed (R81, R105, R161 (d)).
-/

namespace Sys2Proof

/-- R77: the four operand shapes. -/
inductive Shape where
  | none
  | both
  | atLeastOne
  | tensOnly
deriving DecidableEq, Repr

/-- R77: does the shape cover this presence pattern (tens present, ones present)? -/
def Shape.admits : Shape → Bool → Bool → Bool
  | .none, t, o => !t && !o
  | .both, t, o => t && o
  | .atLeastOne, t, o => t || o
  | .tensOnly, t, o => t && !o

/-- R77: the row of the shape table for each opcode. -/
def Opcode.shape : Opcode → Shape
  | .keyboard | .accToSec | .print | .home => .none
  | .write | .read | .add | .sub | .mul | .div => .both
  | .alter | .transfer | .condTransfer => .atLeastOne
  | .stepBy => .tensOnly

/-- R77: the instruction's operand combination is covered. -/
def Instr.wellFormed (i : Instr) : Bool :=
  i.op.shape.admits i.tens.isSome i.ones.isSome

end Sys2Proof
end

