-- ==== Sys2Proof/Decode.lean ====
section
/-!
DEFINITION. The numeric encoding of an instruction (rules R71 to R76 and R85 of `30_encoding.md`): the six-digit image,
the 25-bit cell word, the decoder of each and, after it, the encoder. The decoder is total on every integer and on every
cell word, and rejects by name.
-/

namespace Sys2Proof

/-- Why a cell word or an image is no instruction (R75, R76, R78 (d)). -/
inductive DecodeError where
  /-- R75: bit 24 is 0, the position holds no instruction. -/
  | unwired
  /-- R76: a nibble above 9. -/
  | badNibble
  /-- R76: a negative value, or one above 999999. -/
  | notSixDigits
  /-- R76: an opcode code above 13. -/
  | badOpcode
  /-- R76: a tens code in 12 to 98. -/
  | badTens
  /-- R76: a ones code in 21 to 98. -/
  | badOnes
deriving DecidableEq, Repr

/-- What a decoder answers: an instruction, or a rejection by name. -/
inductive Decoded where
  | ok (i : Instr)
  | reject (why : DecodeError)
deriving DecidableEq, Repr

/-- The instruction of a decoder's answer, if it is one. -/
def Decoded.instr? : Decoded → Option Instr
  | .ok i => some i
  | .reject _ => none

/-- R71: the opcode with index `opx`. -/
def opcodeOfIndex : Nat → Option Opcode
  | 0 => some .keyboard
  | 1 => some .write
  | 2 => some .read
  | 3 => some .accToSec
  | 4 => some .print
  | 5 => some .add
  | 6 => some .sub
  | 7 => some .mul
  | 8 => some .div
  | 9 => some .alter
  | 10 => some .transfer
  | 11 => some .condTransfer
  | 12 => some .home
  | 13 => some .stepBy
  | _ => none

/-- R72: the tens operand with tens code `tc`; the outer `none` is a code outside the table. -/
def tensOfCode (tc : Nat) : Option (Option TensDigit) :=
  if h : tc < 10 then some (some (.lit ⟨tc, h⟩))
  else if tc = 10 then some (some .regE)
  else if tc = 11 then some (some .regX)
  else if tc = 99 then some none
  else none

/-- R73: the ones operand with ones code `oc`; the outer `none` is a code outside the table. -/
def onesOfCode (oc : Nat) : Option (Option OnesDigit) :=
  if h : oc < 16 then some (some (.lit ⟨oc, h⟩))
  else if oc = 16 then some (some .regE)
  else if oc = 17 then some (some .regF)
  else if oc = 18 then some (some .regY)
  else if oc = 19 then some (some .star)
  else if oc = 20 then some (some .vee)
  else if oc = 99 then some none
  else none

/-- R76: the instruction with the three given codes, the first code outside its table named. -/
def decodeCodes (opx tc oc : Nat) : Decoded :=
  match opcodeOfIndex opx with
  | none => .reject .badOpcode
  | some op =>
    match tensOfCode tc with
    | none => .reject .badTens
    | some t =>
      match onesOfCode oc with
      | none => .reject .badOnes
      | some o => .ok (Instr.ofParts op t o)

/-- R76 `DecodeImage(v)`. -/
def decodeImage (v : Int) : Decoded :=
  if v < 0 ∨ 999999 < v then .reject .notSixDigits
  else decodeCodes (v.toNat / 10000) (v.toNat / 100 % 100) (v.toNat % 100)

/-- R75: nibble `k` of a cell word, nibble 0 being bits 3 to 0. -/
def cellNibble (w : BitVec 25) (k : Nat) : Nat := w.toNat / 16 ^ k % 16

/-- R75, R76, R85: decode a cell word. Bit 24 is the wired bit; bits 23 to 0 are the six digits O1 O0 T1 T0 N1 N0. -/
def decodeCell (w : BitVec 25) : Decoded :=
  if w.toNat / 2 ^ 24 = 0 then .reject .unwired
  else if 9 < cellNibble w 0 ∨ 9 < cellNibble w 1 ∨ 9 < cellNibble w 2 ∨ 9 < cellNibble w 3
      ∨ 9 < cellNibble w 4 ∨ 9 < cellNibble w 5 then .reject .badNibble
  else decodeCodes (10 * cellNibble w 5 + cellNibble w 4) (10 * cellNibble w 3 + cellNibble w 2)
    (10 * cellNibble w 1 + cellNibble w 0)

/-- The instruction whose bits are `w`, numbered as spec/opcode_table.json numbers them: one 25-bit cell word with every bit
above it 0. The instruction has one length (R79), so the number of bits the table is read with plays no part. -/
def decodeTableWord (_nbits w : Nat) : Option Instr :=
  if w < 2 ^ 25 then (decodeCell (BitVec.ofNat 25 w)).instr? else none

/-! ### The encoder -/

/-- R71: the opcode index `opx`. -/
def opcodeIndex : Opcode → Nat
  | .keyboard => 0
  | .write => 1
  | .read => 2
  | .accToSec => 3
  | .print => 4
  | .add => 5
  | .sub => 6
  | .mul => 7
  | .div => 8
  | .alter => 9
  | .transfer => 10
  | .condTransfer => 11
  | .home => 12
  | .stepBy => 13

/-- R72: the tens code `tc`; an absent tens has code 99. -/
def tensCode : Option TensDigit → Nat
  | some (.lit d) => d.val
  | some .regE => 10
  | some .regX => 11
  | none => 99

/-- R73: the ones code `oc`; an absent ones has code 99. -/
def onesCode : Option OnesDigit → Nat
  | some (.lit n) => n.val
  | some .regE => 16
  | some .regF => 17
  | some .regY => 18
  | some .star => 19
  | some .vee => 20
  | none => 99

/-- R74 `Image(op, tens, ones)`. -/
def image (i : Instr) : Nat :=
  opcodeIndex i.op * 10000 + tensCode i.tens * 100 + onesCode i.ones

/-- R75: the two binary-coded digits of a two-digit code, one digit per four bits. -/
def bcdPair (c : Nat) : BitVec 8 := BitVec.ofNat 4 (c / 10) ++ BitVec.ofNat 4 (c % 10)

/-- R75: the cell word of an instruction: the wired bit, then the six digits of its image, binary-coded. -/
def encode (i : Instr) : BitVec 25 :=
  1#1 ++ (bcdPair (opcodeIndex i.op) ++ (bcdPair (tensCode i.tens) ++ bcdPair (onesCode i.ones)))

/-- R75: the cell word of a cell; an unwired cell is canonically the word 0. -/
def cellWord : Option Instr → BitVec 25
  | some i => encode i
  | none => 0

end Sys2Proof
end

