-- ==== Sys2Proof/Machine/State.lean ====
section
/-!
DEFINITION. The machine's state as plain data: every element of rule R20 of `10_state.md` and the output history of R38,
with the errors of R32 and R200, the reasons a step can stop, and the state after reset (R41, R240).
-/

namespace Sys2Proof.Machine

/-- R200: the five execution errors. -/
inductive ErrKind where
  | missingPinboard
  | missingInstruction
  | invalidMemory
  | overflow
  | divisionByZero
deriving DecidableEq, Repr

/-- R200: the sub-cause tag beside the kind. -/
inductive Cause where
  | none
  | unwired
  | uncovered
  | badImage
  | cell
  | target
deriving DecidableEq, Repr

/-- R32: the error value an alarm carries, the pair (kind, cause). -/
structure Err where
  kind : ErrKind
  cause : Cause
deriving DecidableEq, Repr

/-- R31: the status, the only control or status register. `cont` is the document's `Continue`. -/
inductive Status where
  | cont
  | keyboard
  | halt
  | alarm (err : Err)
deriving DecidableEq, Repr

/-- R38: an event of the output stream; the only one is `Print(v)`. -/
inductive Event where
  | print (v : Int)
deriving DecidableEq, Repr

/-- R33, R34, R27: a pinboard: N cells, each unwired or holding one instruction, and a cursor. -/
structure Pinboard where
  cells : Vector (Option Instr) Config.capacity
  cur : Nat
deriving DecidableEq, Repr

/-- R33: the eight slots, slot p at index p - 1; an empty slot is `none`. -/
abbrev Slots := Vector (Option Pinboard) Config.numSlots

/-- R35, R50: the data memory as (linear address, word) pairs in one canonical form: addresses strictly rising, no entry
equal to what an unlisted address reads as. The address of (t, o) is 10 t + o. The unit is a whole decimal word: this
machine has no bytes (R54; assumption log 10). -/
abbrev Memory := List (Nat × Int)

/-- R20, R38: the whole state. -/
structure State where
  /-- R31 `STATUS`. -/
  status : Status
  /-- R33 `SLOT[1..8]`. -/
  slots : Slots
  /-- R26 `CP`. -/
  cp : Nat
  /-- R35 `MEM`. -/
  mem : Memory
  /-- R21 `ACC`. -/
  acc : Int
  /-- R22 `SEC`. -/
  sec : Int
  /-- R23 `E`. -/
  ctlE : Digit
  /-- R23 `F`. -/
  ctlF : Digit
  /-- R23 `X`. -/
  ctlX : Digit
  /-- R23 `Y`. -/
  ctlY : Digit
  /-- R38 `OUT`, oldest event first. -/
  out : List Event
deriving DecidableEq, Repr

/-- What stops the machine with no next state. The spec's own errors are no faults here: they are next states in `Alarm`
(R108). Both faults arise only where a meaning is run outside a step, on a state no fetch has passed. -/
inductive Fault where
  /-- Raised by the cursor moves (`advance`, `H`, `S`) when `SLOT[CP]` is empty. A step never raises it: the fetch of R101
  comes first. Safe. -/
  | noCurrentPinboard
  /-- Raised by the cursor moves that evaluate `Last(CP)` when no cell of the pinboard is wired: R34 leaves `Last` undefined
  there and says no rule evaluates it. A step never raises it: the fetch of R102 comes first. Safe. -/
  | lastUndefined
deriving DecidableEq, Repr

/-- Why an instruction has no meaning. -/
inductive Refusal where
  /-- Raised by an arm of `exec` whose instruction has no meaning yet. Safe. -/
  | notModelled (mnemonic : String)
  /-- R103: raised by every instruction whose ones digit is `*` or `V`: the step changes nothing and reports
  `Unsupported`; the spec says a model treats it as a refusal (D19, U1). Safe. -/
  | unsupported
deriving DecidableEq, Repr

/-- R41, R240: the state after `Reset`. -/
def State.reset : State where
  status := .cont
  slots := Vector.replicate Config.numSlots none
  cp := 1
  mem := []
  acc := 0
  sec := 0
  ctlE := 0
  ctlF := 0
  ctlX := 0
  ctlY := 0
  out := []

end Sys2Proof.Machine
end

