-- ==== Sys2Proof/Machine/Ops.lean ====
section
/-!
DEFINITION. The named operations over the state: the register writes, the slots and cells of the program store, the data
memory and its one accessor (R51), taking an execution error (R108, R204) and the one way out of it (R205, R240), and the
cursor's advance with halt detection (R107).
-/

namespace Sys2Proof.Machine

/-- What a meaning and a step answer. -/
abbrev Result := Host.Outcome State Fault Refusal

/-- The next state of an answer, if there is one. -/
def nextOf : Result → Option State
  | .next s => some s
  | .fault _ => none
  | .refused _ => none

/-! ### Pinboards and slots -/

/-- R33, R34: the cell at position `q`; a position the pinboard does not have holds nothing. -/
def Pinboard.cell (b : Pinboard) (q : Nat) : Option Instr := (b.cells[q]?).join

/-- R160: the pinboard with position `q` wired to `i`. -/
def Pinboard.withCell (b : Pinboard) (q : Nat) (i : Instr) : Pinboard :=
  { b with cells := b.cells.setIfInBounds q (some i) }

/-- R27: the pinboard with its cursor at `q`. -/
def Pinboard.withCur (b : Pinboard) (q : Nat) : Pinboard := { b with cur := q }

/-- The greatest index of a wired entry of a list of cells. -/
def lastWired : List (Option Instr) → Option Nat
  | [] => none
  | c :: cs =>
    match lastWired cs with
    | some k => some (k + 1)
    | none => if c.isSome then some 0 else none

/-- R34 `Last`: the greatest wired position; `none` for a pinboard with no wired cell, where R34 leaves it undefined. -/
def Pinboard.last? (b : Pinboard) : Option Nat := lastWired b.cells.toList

/-- R26, R33: the pinboard in slot `p`; there is no slot 0 and none above 8. -/
def slotAt (sl : Slots) (p : Nat) : Option Pinboard :=
  match p with
  | 0 => none
  | k + 1 => (sl[k]?).join

/-- R33: the slots with the content of slot `p` replaced as a whole. -/
def slotPut (sl : Slots) (p : Nat) (b : Option Pinboard) : Slots :=
  match p with
  | 0 => sl
  | k + 1 => sl.setIfInBounds k b

/-- The slots with the pinboard of slot `p`, if there is one, changed by `f`. -/
def slotModify (sl : Slots) (p : Nat) (f : Pinboard → Pinboard) : Slots :=
  match slotAt sl p with
  | none => sl
  | some b => slotPut sl p (some (f b))

/-- R33 `SLOT[p]`. -/
def State.slot (s : State) (p : Nat) : Option Pinboard := slotAt s.slots p

/-- R25: the program counter (CP, SLOT[CP].cur), where the current slot holds a pinboard. -/
def State.pc? (s : State) : Option (Nat × Nat) :=
  match s.slot s.cp with
  | none => none
  | some b => some (s.cp, b.cur)

/-! ### Register, cursor and cell writes -/

/-- R31 `STATUS <- st`. -/
def State.setStatus (s : State) (st : Status) : State := { s with status := st }

/-- R21 `x[ACC] <- v`. -/
def State.setAcc (s : State) (v : Int) : State := { s with acc := v }

/-- R22 `x[SEC] <- v`. -/
def State.setSec (s : State) (v : Int) : State := { s with sec := v }

/-- R26 `CP <- p`. -/
def State.setCp (s : State) (p : Nat) : State := { s with cp := p }

/-- R33 `SLOT[p] <- b`. -/
def State.setSlot (s : State) (p : Nat) (b : Option Pinboard) : State := { s with slots := slotPut s.slots p b }

/-- R27 `SLOT[p].cur <- q`. -/
def State.setCursor (s : State) (p q : Nat) : State :=
  { s with slots := slotModify s.slots p fun b => b.withCur q }

/-- R160 `SLOT[p].cell[q] <- Some i`. -/
def State.setCell (s : State) (p q : Nat) (i : Instr) : State :=
  { s with slots := slotModify s.slots p fun b => b.withCell q i }

/-- R9 `Emit(ev)`. -/
def State.emit (s : State) (ev : Event) : State := { s with out := s.out ++ [ev] }

/-- R23: the control register `r`. -/
def State.ctl (s : State) : CtlReg → Digit
  | .e => s.ctlE
  | .f => s.ctlF
  | .x => s.ctlX
  | .y => s.ctlY

/-- R222 `x[r] <- d` for a control register; no instruction does it (R23). -/
def State.setCtl (s : State) (r : CtlReg) (d : Digit) : State :=
  match r with
  | .e => { s with ctlE := d }
  | .f => { s with ctlF := d }
  | .x => { s with ctlX := d }
  | .y => { s with ctlY := d }

/-! ### The data memory -/

/-- R41: what a word of memory that nothing has written reads as. -/
def Memory.unlisted : Int := 0

/-- R50: the linear name of the data address (t, o). -/
def dataAddr (t o : Nat) : Nat := 10 * t + o

/-- R50: the word at a linear address. -/
def Memory.read : Memory → Nat → Int
  | [], _ => Memory.unlisted
  | (k, v) :: rest, a => if a = k then v else Memory.read rest a

/-- R56: the memory with one word written, in canonical form: the value an unlisted address reads as is not listed. -/
def Memory.write : Memory → Nat → Int → Memory
  | [], a, v => if v = Memory.unlisted then [] else [(a, v)]
  | (k, w) :: rest, a, v =>
    if a < k then
      if v = Memory.unlisted then (k, w) :: rest else (a, v) :: (k, w) :: rest
    else if a = k then
      if v = Memory.unlisted then rest else (a, v) :: rest
    else (k, w) :: Memory.write rest a v

/-- The canonical form: addresses strictly rising and inside the grid, no entry equal to what an unlisted address reads
as. -/
abbrev Memory.wf (m : Memory) : Prop :=
  m.Pairwise (fun c d => c.1 < d.1) ∧ ∀ c ∈ m, c.1 < Config.memTens * Config.memOnes ∧ c.2 ≠ Memory.unlisted

/-- R50 `MEM[t][o]`. -/
def State.word (s : State) (t o : Nat) : Int := s.mem.read (dataAddr t o)

/-! ### Errors -/

/-- R200, code 1. -/
def Err.missingPinboard : Err := ⟨.missingPinboard, .none⟩
/-- R200, code 2, cause `Unwired`. -/
def Err.unwired : Err := ⟨.missingInstruction, .unwired⟩
/-- R200, code 2, cause `Uncovered`. -/
def Err.uncovered : Err := ⟨.missingInstruction, .uncovered⟩
/-- R200, code 2, cause `BadImage`. -/
def Err.badImage : Err := ⟨.missingInstruction, .badImage⟩
/-- R200, code 3, cause `Cell`. -/
def Err.cell : Err := ⟨.invalidMemory, .cell⟩
/-- R200, code 3, cause `Target`. -/
def Err.target : Err := ⟨.invalidMemory, .target⟩
/-- R200, code 4. -/
def Err.overflow : Err := ⟨.overflow, .none⟩
/-- R200, code 5. -/
def Err.divisionByZero : Err := ⟨.divisionByZero, .none⟩

/-- R200: the numeric code of an error's kind. -/
def ErrKind.code : ErrKind → Nat
  | .missingPinboard => 1
  | .missingInstruction => 2
  | .invalidMemory => 3
  | .overflow => 4
  | .divisionByZero => 5

/-- R108, R204: taking an execution error, from the state before the step: the one write `STATUS <- Alarm(kind, cause)`.
Nothing is saved, since nothing else is overwritten, and control goes nowhere. -/
def raiseAlarm (s : State) (e : Err) : State := s.setStatus (.alarm e)

/-- R205, R240: the only way out of `Alarm` and of `Halt` is `Reset`, which keeps nothing of the state it leaves. -/
def leaveAlarm (_ : State) : State := State.reset

/-- R108: go on with the value of a checked operation, or raise its error from the state `s` before the step. -/
def orAlarm {α : Type} (s : State) (r : Except Err α) (k : α → Result) : Result :=
  match r with
  | .error e => .next (raiseAlarm s e)
  | .ok a => k a

/-! ### The data accessor -/

/-- R51 `MemRead((t,o), 1)`. -/
def memRead (s : State) (t o : Nat) : Except Err Int :=
  if 9 < t ∨ 9 < o then .error Err.cell else .ok (s.word t o)

/-- R51 `MemWrite((t,o), 1, v)`. -/
def memWrite (s : State) (t o : Nat) (v : Int) : Except Err State :=
  if 9 < t ∨ 9 < o then .error Err.cell else .ok { s with mem := s.mem.write (dataAddr t o) v }

/-! ### The advance -/

/-- R107 `Advance()`, on the current pinboard; `Last` is evaluated now, after the instruction's own effect. -/
def advance (s : State) : Result :=
  match s.slot s.cp with
  | none => .fault .noCurrentPinboard
  | some b =>
    match b.last? with
    | none => .fault .lastUndefined
    | some l => if l ≤ b.cur then .next (s.setStatus .halt) else .next (s.setCursor s.cp (b.cur + 1))

end Sys2Proof.Machine
end

