-- ==== Sys2Proof/Machine/Operands.lean ====
section
/-!
DEFINITION. The operand forms: the refusal of `*` and `V` (R103), the special-digit substitution (R104), the four operand
shapes with their check (R77, R105), and the target resolution of `A`, `U` and `C` (R110).
-/

namespace Sys2Proof.Machine

/-- R104: the resolved tens operand. -/
def resolveTens (s : State) : Option TensDigit → Option Nat
  | none => none
  | some (.lit d) => some d.val
  | some .regE => some s.ctlE.val
  | some .regX => some s.ctlX.val

/-- R103, R104: the resolved ones operand, or the refusal of `*` and `V`. -/
def resolveOnes (s : State) : Option OnesDigit → Except Refusal (Option Nat)
  | none => .ok none
  | some (.lit n) => .ok (some n.val)
  | some .regE => .ok (some s.ctlE.val)
  | some .regF => .ok (some s.ctlF.val)
  | some .regY => .ok (some s.ctlY.val)
  | some .star => .error .unsupported
  | some .vee => .error .unsupported

/-- R111, 4 and 5: the refusal, then the substitution, then `k` on the resolved copy. -/
def withOperands (t : Option TensDigit) (o : Option OnesDigit) (s : State) (k : Option Nat → Option Nat → Result) :
    Result :=
  match resolveOnes s o with
  | .error r => .refused r
  | .ok on => k (resolveTens s t) on

/-- R105: the alarm of an uncovered operand combination. -/
def uncovered (s : State) : Result := .next (raiseAlarm s Err.uncovered)

/-- R77, shape of `K B P H`: both operands absent. -/
def noOperands (t : Option TensDigit) (o : Option OnesDigit) (s : State) (k : Result) : Result :=
  withOperands t o s fun tn on =>
    match tn, on with
    | none, none => k
    | _, _ => uncovered s

/-- R77, shape of `W R + − × ÷`: both operands present. -/
def bothOperands (t : Option TensDigit) (o : Option OnesDigit) (s : State) (k : Nat → Nat → Result) : Result :=
  withOperands t o s fun tn on =>
    match tn, on with
    | some a, some b => k a b
    | _, _ => uncovered s

/-- R77, shape of `A U C`: at least one operand present. -/
def someOperand (t : Option TensDigit) (o : Option OnesDigit) (s : State) (k : Option Nat → Option Nat → Result) :
    Result :=
  withOperands t o s fun tn on =>
    match tn, on with
    | none, none => uncovered s
    | _, _ => k tn on

/-- R77, shape of `S`: tens present, ones absent. -/
def tensOperand (t : Option TensDigit) (o : Option OnesDigit) (s : State) (k : Nat → Result) : Result :=
  withOperands t o s fun tn on =>
    match tn, on with
    | some a, none => k a
    | _, _ => uncovered s

/-- R6, R110: the OPEN parameter `TargetPolicy`: a function of the resolved operands and the state to a program address,
or a failure. -/
abbrev TargetPolicy := State → Option Nat → Option Nat → Option (Nat × Nat)

/-- R110 `ResolveTarget(t, o)`, the default `TargetPolicy` (decision D13; assumption log 2). -/
def resolveTarget : TargetPolicy := fun s t o =>
  let p := t.getD s.cp
  match s.slot p with
  | none => none
  | some b =>
    let q := o.getD b.cur
    if Config.capacity ≤ q then none else some (p, q)

end Sys2Proof.Machine
end

