-- ==== Sys2Proof/Machine/Alter.lean ====
section
/-!
DEFINITION. The self-modification instruction `A` (`44_alter.md`), for any target policy, and at the default one.
-/

namespace Sys2Proof.Machine

/-- R160 `A tens ones` (Alter) under a target policy: the target first, then the image in `ACC`, then the one cell. -/
def alterUnder (target : TargetPolicy) (t : Option TensDigit) (o : Option OnesDigit) (s : State) : Result :=
  someOperand t o s fun tn on =>
    match target s tn on with
    | none => .next (raiseAlarm s Err.target)
    | some (p, q) =>
      match decodeImage s.acc with
      | .reject _ => .next (raiseAlarm s Err.badImage)
      | .ok n => advance (s.setCell p q n)

/-- R160 `A tens ones` (Alter). -/
def execAlter (t : Option TensDigit) (o : Option OnesDigit) (s : State) : Result :=
  alterUnder resolveTarget t o s

end Sys2Proof.Machine
end

