-- ==== Sys2Proof/Machine/Alu.lean ====
section
/-!
DEFINITION. The laws of the decimal ALU as pure functions (rules R140 to R145 of `43_arithmetic.md`): exact integer
arithmetic, then a range check; nothing wraps, saturates or rounds.
-/

namespace Sys2Proof.Machine

/-- R141 `Construct12(v)`; `none` is `OutOfRange`. -/
def construct12 (v : Int) : Option Int := if InWord12 v then some v else none

/-- R141 `Construct11(v)`; `none` is `OutOfRange`. -/
def construct11 (v : Int) : Option Int := if InWord11 v then some v else none

/-- R142 `Add12(a, b)`. -/
def add12 (a b : Int) : Except Err Int :=
  if InWord12 (a + b) then .ok (a + b) else .error Err.overflow

/-- R142 `Sub12(a, b)`. -/
def sub12 (a b : Int) : Except Err Int :=
  if InWord12 (a - b) then .ok (a - b) else .error Err.overflow

/-- R143 `Narrow11(a)`. -/
def narrow11 (a : Int) : Except Err Int :=
  if InWord11 a then .ok a else .error Err.overflow

/-- R144: the weight of the high-order part of a product, 10^12. -/
def splitBase : Nat := 1000000000000

/-- R144 `MulSplit(a, b)`: the low-order and the high-order part of the exact product, both with its sign. -/
def mulSplit (a b : Int) : Except Err (Int × Int) :=
  let p := a * b
  let lo : Int := (p.natAbs % splitBase : Nat)
  let hi : Int := (p.natAbs / splitBase : Nat)
  if Config.p11 < hi then .error Err.overflow else .ok (p.sign * lo, p.sign * hi)

/-- R145 `DivRem(a, b)`: the quotient rounded toward zero and the remainder. -/
def divRem (a b : Int) : Except Err (Int × Int) :=
  if b = 0 then .error Err.divisionByZero
  else
    let q := a.tdiv b
    let r := a - q * b
    if InWord11 r then .ok (q, r) else .error Err.overflow

end Sys2Proof.Machine
end

