-- ==== Sys2Proof/Machine/Arithmetic.lean ====
section
/-!
DEFINITION. The arithmetic instructions `+`, `−`, `×` and `÷` (`43_arithmetic.md`, part 2). The memory operand is read
first, then the ALU's checks run, then the registers are written (R111, 6 and 7).
-/

namespace Sys2Proof.Machine

/-- R147 `+ tens ones` (Add). -/
def execAdd (t : Option TensDigit) (o : Option OnesDigit) (s : State) : Result :=
  bothOperands t o s fun a b =>
    orAlarm s (memRead s a b) fun m => orAlarm s (add12 s.acc m) fun v => advance (s.setAcc v)

/-- R148 `− tens ones` (Subtract): the accumulator is the minuend. -/
def execSub (t : Option TensDigit) (o : Option OnesDigit) (s : State) : Result :=
  bothOperands t o s fun a b =>
    orAlarm s (memRead s a b) fun m => orAlarm s (sub12 s.acc m) fun v => advance (s.setAcc v)

/-- R149 `× tens ones` (Multiply): low-order part to `ACC`, high-order part to `SEC`. -/
def execMul (t : Option TensDigit) (o : Option OnesDigit) (s : State) : Result :=
  bothOperands t o s fun a b =>
    orAlarm s (memRead s a b) fun m =>
      orAlarm s (mulSplit s.acc m) fun v => advance ((s.setAcc v.1).setSec v.2)

/-- R150 `÷ tens ones` (Divide): quotient to `ACC`, remainder to `SEC`; the dividend is `ACC` alone. -/
def execDiv (t : Option TensDigit) (o : Option OnesDigit) (s : State) : Result :=
  bothOperands t o s fun a b =>
    orAlarm s (memRead s a b) fun m =>
      orAlarm s (divRem s.acc m) fun v => advance ((s.setAcc v.1).setSec v.2)

end Sys2Proof.Machine
end

