-- ==== Sys2Proof/Machine/Flags.lean ====
section
/-!
DEFINITION. The block has no flags and no condition codes (R30): no instruction sets one and no state holds one. The only
condition is the one `C` tests directly on the state (R172); it stands here.
-/

namespace Sys2Proof.Machine

/-- R6, R172: the OPEN parameter `CondPolicy`: a total function from the state at the start of the step to a truth
value. -/
abbrev CondPolicy := State → Bool

/-- R172: the default `CondPolicy`, `x[ACC] < 0`, strictly (decision D14; assumption log 3). -/
def accNegative : CondPolicy := fun s => decide (s.acc < 0)

end Sys2Proof.Machine
end

