-- ==== Sys2Proof/Machine/Control.lean ====
section
/-!
DEFINITION. The control transfer instructions `U`, `C`, `H` and `S` (`45_control.md`). None of them advances after
relocating the cursor.
-/

namespace Sys2Proof.Machine

/-- R170, R171: `pc <- target`, or the alarm of a target that does not exist. -/
def transferTo (target : TargetPolicy) (s : State) (tn on : Option Nat) : Result :=
  match target s tn on with
  | none => .next (raiseAlarm s Err.target)
  | some (p, q) => .next ((s.setCp p).setCursor p q)

/-- R170 `U tens ones` under a target policy. -/
def transferUnder (target : TargetPolicy) (t : Option TensDigit) (o : Option OnesDigit) (s : State) : Result :=
  someOperand t o s (transferTo target s)

/-- R171 `C tens ones` under a target and a condition policy: the target is resolved only when the transfer is taken. -/
def condTransferUnder (target : TargetPolicy) (cond : CondPolicy) (t : Option TensDigit) (o : Option OnesDigit)
    (s : State) : Result :=
  someOperand t o s fun tn on => if cond s then transferTo target s tn on else advance s

/-- R170 `U tens ones` (Unconditional-transfer). -/
def execTransfer (t : Option TensDigit) (o : Option OnesDigit) (s : State) : Result :=
  transferUnder resolveTarget t o s

/-- R171, R172 `C tens ones` (Conditional-transfer). -/
def execCondTransfer (t : Option TensDigit) (o : Option OnesDigit) (s : State) : Result :=
  condTransferUnder resolveTarget accNegative t o s

/-- R173 `H` (Home). -/
def execHome (t : Option TensDigit) (o : Option OnesDigit) (s : State) : Result :=
  noOperands t o s
    (match s.slot s.cp with
    | none => .fault .noCurrentPinboard
    | some _ => .next (s.setCursor s.cp 0))

/-- R174 `S tens` (Step): the cursor moves by the resolved tens digit, or the machine halts where that is past `Last`. -/
def execStepBy (t : Option TensDigit) (o : Option OnesDigit) (s : State) : Result :=
  tensOperand t o s fun n =>
    match s.slot s.cp with
    | none => .fault .noCurrentPinboard
    | some b =>
      match b.last? with
      | none => .fault .lastUndefined
      | some l => if l < b.cur + n then .next (s.setStatus .halt) else .next (s.setCursor s.cp (b.cur + n))

end Sys2Proof.Machine
end

