-- ==== Sys2Proof/Machine/DataMovement.lean ====
section
/-!
DEFINITION. The data movement instructions `W`, `R` and `B` (`42_data_movement.md`).
-/

namespace Sys2Proof.Machine

/-- R130 `W tens ones` (Write). -/
def execWrite (t : Option TensDigit) (o : Option OnesDigit) (s : State) : Result :=
  bothOperands t o s fun a b => orAlarm s (memWrite s a b s.acc) advance

/-- R131 `R tens ones` (Read). -/
def execRead (t : Option TensDigit) (o : Option OnesDigit) (s : State) : Result :=
  bothOperands t o s fun a b => orAlarm s (memRead s a b) fun v => advance (s.setAcc v)

/-- R132 `B` (Accumulator-to-secondary). -/
def execAccToSec (t : Option TensDigit) (o : Option OnesDigit) (s : State) : Result :=
  noOperands t o s (orAlarm s (narrow11 s.acc) fun v => advance (s.setSec v))

end Sys2Proof.Machine
end

