-- ==== Sys2Proof/Machine/Io.lean ====
section
/-!
DEFINITION. The input and output instructions `K` and `P` (`41_io.md`). The completion of `K`, the host's `SupplyInput`
(R121), stands in Transactions.lean.
-/

namespace Sys2Proof.Machine

/-- R120 `K` (Keyboard-read): no advance until the host supplies the word. -/
def execKeyboard (t : Option TensDigit) (o : Option OnesDigit) (s : State) : Result :=
  noOperands t o s (.next (s.setStatus .keyboard))

/-- R122 `P` (Print): emits the accumulator alone (decision D10). -/
def execPrint (t : Option TensDigit) (o : Option OnesDigit) (s : State) : Result :=
  noOperands t o s (advance (s.emit (.print s.acc)))

end Sys2Proof.Machine
end

