-- ==== Sys2Proof/Machine/Dispatch.lean ====
section
/-!
DEFINITION. The dispatch of rule R106: one arm per opcode, each a direct call of its meaning.
-/

namespace Sys2Proof.Machine

def exec (i : Instr) (s : State) : Host.Outcome State Fault Refusal :=
  match i with
  -- 41_io.md, 42_data_movement.md
  | .keyboard t o => Sys2Proof.Machine.execKeyboard t o s
  | .write t o => Sys2Proof.Machine.execWrite t o s
  | .read t o => Sys2Proof.Machine.execRead t o s
  | .accToSec t o => Sys2Proof.Machine.execAccToSec t o s
  | .print t o => Sys2Proof.Machine.execPrint t o s
  -- 43_arithmetic.md
  | .add t o => Sys2Proof.Machine.execAdd t o s
  | .sub t o => Sys2Proof.Machine.execSub t o s
  | .mul t o => Sys2Proof.Machine.execMul t o s
  | .div t o => Sys2Proof.Machine.execDiv t o s
  -- 44_alter.md, 45_control.md
  | .alter t o => Sys2Proof.Machine.execAlter t o s
  | .transfer t o => Sys2Proof.Machine.execTransfer t o s
  | .condTransfer t o => Sys2Proof.Machine.execCondTransfer t o s
  | .home t o => Sys2Proof.Machine.execHome t o s
  | .stepBy t o => Sys2Proof.Machine.execStepBy t o s

end Sys2Proof.Machine
end

