-- ==== Sys2Proof/Machine/Fetch.lean ====
section
/-!
DEFINITION. The part of a step that comes before the instruction (R100 to R102), for any execution function, the cell word
the fetch meets, and the placing of a cell word where the next fetch finds it.
-/

namespace Sys2Proof.Machine

/-- R101, R102: the fetch: the instruction at pc, or the execution error. -/
def fetch (s : State) : Except Err Instr :=
  match s.slot s.cp with
  | none => .error Err.missingPinboard
  | some b =>
    match b.cell b.cur with
    | none => .error Err.unwired
    | some i => .ok i

/-- R75: the 25-bit cell word at pc; 0 (unwired) where no pinboard is loaded. -/
def pcWord (s : State) : BitVec 25 :=
  match s.slot s.cp with
  | none => 0
  | some b => cellWord (b.cell b.cur)

/-- R100, R111: one step with the execution function `run`: it acts only in `Continue`, in any other status it changes
nothing; then the fetch, then the instruction. -/
def stepUsing (run : Instr → State → Result) (s : State) : Result :=
  match s.status with
  | .cont => orAlarm s (fetch s) fun i => run i s
  | .keyboard => .next s
  | .halt => .next s
  | .alarm _ => .next s

/-- R33, R221: a pinboard with no cell wired and its cursor at 0. -/
def Pinboard.blank : Pinboard := { cells := Vector.replicate Config.capacity none, cur := 0 }

/-- What a fetch needs beside the cell (R100, R101): the status `Continue`, a current slot that exists and is loaded, and
a cursor inside the pinboard. Each is left as it is where it already holds. -/
def makeReady (s : State) : State :=
  let s1 := s.setStatus .cont
  let s2 := if 1 ≤ s1.cp ∧ s1.cp ≤ Config.numSlots then s1 else s1.setCp 1
  match s2.slot s2.cp with
  | none => s2.setSlot s2.cp (some Pinboard.blank)
  | some b => if b.cur < Config.capacity then s2 else s2.setCursor s2.cp 0

/-- The state with the cell at pc holding `c`. -/
def placeAtPc (s : State) (c : Option Instr) : State :=
  { s with slots := slotModify s.slots s.cp fun b => { b with cells := b.cells.setIfInBounds b.cur c } }

/-- The state with the cell word `w` placed at pc, ready to be fetched: an instruction wires the cell, a word with bit 24
clear unwires it, a reserved word (R78 (d)) cannot stand in a cell and changes nothing. -/
def placeWord (s : State) (nbits w : Nat) : State :=
  match decodeTableWord nbits w with
  | some i => placeAtPc (makeReady s) (some i)
  | none => if w < 2 ^ 24 then placeAtPc (makeReady s) none else s

end Sys2Proof.Machine
end

