-- ==== Sys2Proof/Machine/Step.lean ====
section
/-!
DEFINITION. The step of `40_cycle.md`: fetch and dispatch; and where the next fetch finds its cell word.
-/

namespace Sys2Proof.Machine

/-- R100 to R111: one `Step`. -/
def step (s : State) : Host.Outcome State Fault Refusal := stepUsing exec s

/-- The state with the instruction word `w` placed where `step` fetches next. It stands for the host's `LoadPinboard`
(R221, R241; assumption log 12). -/
def State.withFetchWord (s : State) (nbits w : Nat) : State := placeWord s nbits w

end Sys2Proof.Machine
end

