-- ==== Sys2Proof/Machine/Assembler.lean ====
section
/-!
DEFINITION. The assembler syntax of rules R80 to R84 of `30_encoding.md`: one instruction per line, whitespace-separated
tokens. It is software and no part of the block (R5 d, R82); a line and a token are lists of characters.
-/

namespace Sys2Proof.Machine

/-- R80: a token. -/
abbrev Token := List Char

/-- R81: the four parse errors, with the offending token; `malformed` carries the tokens past the third (none for an
empty line). -/
inductive ParseError where
  | unknownOpcode (tok : Token)
  | unknownTens (tok : Token)
  | unknownOnes (tok : Token)
  | malformed (extra : List Token)
deriving DecidableEq, Repr

/-- R81: what the parser answers. -/
inductive Parsed where
  | ok (i : Instr)
  | error (e : ParseError)
deriving DecidableEq, Repr

/-- R71: the opcode symbols, exact: four of them are U+002B, U+2212, U+00D7 and U+00F7. -/
def opcodeOfToken : Token → Option Opcode
  | ['K'] => some .keyboard
  | ['W'] => some .write
  | ['R'] => some .read
  | ['B'] => some .accToSec
  | ['P'] => some .print
  | ['+'] => some .add
  | ['−'] => some .sub
  | ['×'] => some .mul
  | ['÷'] => some .div
  | ['A'] => some .alter
  | ['U'] => some .transfer
  | ['C'] => some .condTransfer
  | ['H'] => some .home
  | ['S'] => some .stepBy
  | _ => none

/-- The value of a decimal digit character. -/
def digitOfChar (c : Char) : Option Nat :=
  if 48 ≤ c.toNat ∧ c.toNat ≤ 57 then some (c.toNat - 48) else none

/-- R80: the canonical numerals 0 to 15, without sign or leading zero. -/
def numeralOfToken : Token → Option Nat
  | [c] => digitOfChar c
  | [c, d] =>
    if c = '1' then
      match digitOfChar d with
      | some n => if n ≤ 5 then some (10 + n) else none
      | none => none
    else none
  | _ => none

/-- R80: the tens tokens. -/
def tensOfToken (tok : Token) : Option TensDigit :=
  if tok = ['E'] then some .regE
  else if tok = ['X'] then some .regX
  else
    match numeralOfToken tok with
    | some n => if h : n < 10 then some (.lit ⟨n, h⟩) else none
    | none => none

/-- R80: the ones tokens. -/
def onesOfToken (tok : Token) : Option OnesDigit :=
  if tok = ['E'] then some .regE
  else if tok = ['F'] then some .regF
  else if tok = ['Y'] then some .regY
  else if tok = ['*'] then some .star
  else if tok = ['V'] then some .vee
  else
    match numeralOfToken tok with
    | some n => if h : n < 16 then some (.lit ⟨n, h⟩) else none
    | none => none

/-- R80: the characters that separate tokens (assumption log 13). -/
def isSpace (c : Char) : Bool := c = ' ' || c = '\t' || c = '\r' || c = '\n'

/-- R80: split a line at white space; `cur` holds the characters of the token being read, last first. -/
def splitTokens (cur : List Char) : List Char → List Token
  | [] => if cur.isEmpty then [] else [cur.reverse]
  | c :: cs =>
    if isSpace c then
      if cur.isEmpty then splitTokens [] cs else cur.reverse :: splitTokens [] cs
    else splitTokens (c :: cur) cs

/-- R81: the parse of a line's tokens, left to right, the first failure reported. DESIGN CHOICE (assumption log 13): a line
of more than three tokens with a bad one among its first three reports the bad token, not the length; the length is
reported where the first three are good. -/
def parseTokens : List Token → Parsed
  | [] => .error (.malformed [])
  | op :: rest =>
    match opcodeOfToken op with
    | none => .error (.unknownOpcode op)
    | some k =>
      match rest with
      | [] => .ok (Instr.ofParts k none none)
      | tt :: rest' =>
        match tensOfToken tt with
        | none => .error (.unknownTens tt)
        | some t =>
          match rest' with
          | [] => .ok (Instr.ofParts k (some t) none)
          | ot :: extra =>
            match onesOfToken ot with
            | none => .error (.unknownOnes ot)
            | some o =>
              if extra.isEmpty then .ok (Instr.ofParts k (some t) (some o)) else .error (.malformed extra)

/-- R81: the parse of a line. -/
def parseLine (line : List Char) : Parsed := parseTokens (splitTokens [] line)

/-- R71: the symbol of an opcode. -/
def opcodeToken : Opcode → Token
  | .keyboard => ['K']
  | .write => ['W']
  | .read => ['R']
  | .accToSec => ['B']
  | .print => ['P']
  | .add => ['+']
  | .sub => ['−']
  | .mul => ['×']
  | .div => ['÷']
  | .alter => ['A']
  | .transfer => ['U']
  | .condTransfer => ['C']
  | .home => ['H']
  | .stepBy => ['S']

/-- The canonical numeral of a number below 16. -/
def numeralToken (n : Nat) : Token :=
  if n < 10 then [Char.ofNat (48 + n)] else ['1', Char.ofNat (38 + n)]

/-- R80: the token of a tens digit. -/
def tensToken : TensDigit → Token
  | .lit d => numeralToken d.val
  | .regE => ['E']
  | .regX => ['X']

/-- R80: the token of a ones digit. -/
def onesToken : OnesDigit → Token
  | .lit n => numeralToken n.val
  | .regE => ['E']
  | .regF => ['F']
  | .regY => ['Y']
  | .star => ['*']
  | .vee => ['V']

/-- R83: the canonical text of an instruction; one with tens absent and ones present has none. -/
def canonicalText (i : Instr) : Option (List Char) :=
  match i.tens, i.ones with
  | none, none => some (opcodeToken i.op)
  | none, some _ => none
  | some t, none => some (opcodeToken i.op ++ ' ' :: tensToken t)
  | some t, some o => some (opcodeToken i.op ++ ' ' :: (tensToken t ++ ' ' :: onesToken o))

end Sys2Proof.Machine
end

