-- ==== Sys2Proof/Machine/Policies.lean ====
section
/-!
DEFINITION. The machine with the two OPEN parameters of rule R6 of `00_scope.md`, `TargetPolicy` and `CondPolicy`, as
arguments. `exec` and `step` are this machine at the spec's defaults (R110, R172); a statement over every lawful policy
holds of the hardware whichever policy it turns out to have.
-/

namespace Sys2Proof.Machine

/-- R6: the OPEN parameters. -/
structure Policies where
  target : TargetPolicy
  cond : CondPolicy

/-- R110, R172: the defaults. -/
def defaultPolicies : Policies := { target := resolveTarget, cond := accNegative }

/-- R110, last sentence: what any target policy must do: it returns a pair with `SLOT[p]` loaded and `q < N`, or fails. That
it reads only (t, o) and the state, and writes nothing, is its type. -/
def Policies.Lawful (pol : Policies) : Prop :=
  ∀ (s : State) (t o : Option Nat) (p q : Nat),
    pol.target s t o = some (p, q) → (s.slot p).isSome ∧ q < Config.capacity

/-- R106: the dispatch under given policies. -/
def execUnder (pol : Policies) (i : Instr) (s : State) : Result :=
  match i with
  | .keyboard t o => execKeyboard t o s
  | .write t o => execWrite t o s
  | .read t o => execRead t o s
  | .accToSec t o => execAccToSec t o s
  | .print t o => execPrint t o s
  | .add t o => execAdd t o s
  | .sub t o => execSub t o s
  | .mul t o => execMul t o s
  | .div t o => execDiv t o s
  | .alter t o => alterUnder pol.target t o s
  | .transfer t o => transferUnder pol.target t o s
  | .condTransfer t o => condTransferUnder pol.target pol.cond t o s
  | .home t o => execHome t o s
  | .stepBy t o => execStepBy t o s

/-- R100 to R111: one `Step` under given policies. -/
def stepUnder (pol : Policies) (s : State) : Result := stepUsing (execUnder pol) s

end Sys2Proof.Machine
end

