-- ==== Sys2Proof/Machine/Transactions.lean ====
section
/-!
DEFINITION. The host interface: the transactions of rule R40 of `10_state.md` with their acceptance conditions and reports
(R100, R109, R121, R201, R220 to R224, R240), and a run of them (R246). `Print(v)` is the one transaction towards the host:
it is the history `State.out`.
-/

namespace Sys2Proof.Machine

/-- R109, R201: what a transaction answers. DESIGN CHOICE (assumption log 17): an accepted load, preload, `Reset` or
`ReadOut` reports `ok`; the spec names `Ok` for `Step` and `SupplyInput` alone. -/
inductive Report where
  /-- R109, R121 for `Step` and `SupplyInput`, assumption log 17 for the others: the transaction took effect. -/
  | ok
  /-- R109: an execution error. -/
  | err (e : Err)
  /-- R103: the fetched cell has ones `*` or `V`. -/
  | unsupported
  /-- R100: `Step` in `Halt` or `Alarm`. -/
  | notRunning
  /-- R100: `Step` in `Keyboard`. -/
  | awaitingInput
  /-- R121, R222: a word outside its range. -/
  | outOfRange
  /-- R121: `SupplyInput` outside `Keyboard`. -/
  | notAwaitingInput
  /-- R221, R222: wrong status, or an argument outside its type. -/
  | notAccepted
  /-- The model's own: a fault of `State.lean`, which no state that meets R42 raises. Nothing changes. -/
  | stuck (f : Fault)
deriving DecidableEq, Repr

/-- R40: the transactions the host sends. -/
inductive Transaction where
  | reset
  | loadPinboard (p : Nat) (cells : List (Option Instr))
  | removePinboard (p : Nat)
  | setAcc (v : Int)
  | setSec (v : Int)
  | setCtl (r : CtlReg) (d : Nat)
  | setMem (t o : Nat) (v : Int)
  | selectPinboard (p : Nat)
  | step
  | supplyInput (v : Int)
  | readOut
deriving DecidableEq, Repr

/-- R221, R222: loads and preloads are accepted in `Continue` alone; `k` is what the transaction does there. The status is
checked before any argument (assumption log 14). -/
def inContinue (s : State) (k : State × Report) : State × Report :=
  match s.status with
  | .cont => k
  | .keyboard => (s, .notAccepted)
  | .halt => (s, .notAccepted)
  | .alarm _ => (s, .notAccepted)

/-- R221: `p` names a slot. -/
abbrev isSlotNo (p : Nat) : Prop := 1 ≤ p ∧ p ≤ Config.numSlots

/-- R221 `LoadPinboard(p, cells)`: the slot is replaced as a whole, cursor 0. -/
def loadPinboard (p : Nat) (cells : List (Option Instr)) (s : State) : State × Report :=
  inContinue s
    (if h : isSlotNo p ∧ cells.length = Config.capacity then
      (s.setSlot p (some { cells := ⟨cells.toArray, by simpa using h.2⟩, cur := 0 }), .ok)
    else (s, .notAccepted))

/-- R221 `RemovePinboard(p)`. -/
def removePinboard (p : Nat) (s : State) : State × Report :=
  inContinue s (if isSlotNo p then (s.setSlot p none, .ok) else (s, .notAccepted))

/-- R222 `SetAcc(v)`. -/
def setAccTx (v : Int) (s : State) : State × Report :=
  inContinue s (if InWord12 v then (s.setAcc v, .ok) else (s, .outOfRange))

/-- R222 `SetSec(v)`. -/
def setSecTx (v : Int) (s : State) : State × Report :=
  inContinue s (if InWord11 v then (s.setSec v, .ok) else (s, .outOfRange))

/-- R222 `SetCtl(r, d)`, the only writer of the control registers (R23). -/
def setCtlTx (r : CtlReg) (d : Nat) (s : State) : State × Report :=
  inContinue s (if h : d < 10 then (s.setCtl r ⟨d, h⟩, .ok) else (s, .notAccepted))

/-- R222 `SetMem(t, o, v)`: the address is checked before the word (assumption log 14). -/
def setMemTx (t o : Nat) (v : Int) (s : State) : State × Report :=
  inContinue s
    (if t < Config.memTens ∧ o < Config.memOnes then
      (if InWord12 v then ({ s with mem := s.mem.write (dataAddr t o) v }, .ok) else (s, .outOfRange))
    else (s, .notAccepted))

/-- R222 `SelectPinboard(p)`: the slot may be empty. -/
def selectPinboard (p : Nat) (s : State) : State × Report :=
  inContinue s (if isSlotNo p then (s.setCp p, .ok) else (s, .notAccepted))

/-- R109: what a completed step reports, from the status it left. -/
def stepReport (st : Status) : Report :=
  match st with
  | .alarm e => .err e
  | .cont => .ok
  | .keyboard => .ok
  | .halt => .ok

/-- R100, R103, R109: the `Step` transaction, with its report. -/
def stepTx (s : State) : State × Report :=
  match s.status with
  | .keyboard => (s, .awaitingInput)
  | .halt => (s, .notRunning)
  | .alarm _ => (s, .notRunning)
  | .cont =>
    match step s with
    | .next u => (u, stepReport u.status)
    | .refused _ => (s, .unsupported)
    | .fault f => (s, .stuck f)

/-- R121 `SupplyInput(v)`, the completion of `K`: the word goes to `ACC`, the status to `Continue`, and then the cursor
advances, which may halt. -/
def supplyInput (v : Int) (s : State) : State × Report :=
  match s.status with
  | .keyboard =>
    if InWord12 v then
      match advance ((s.setAcc v).setStatus .cont) with
      | .next u => (u, .ok)
      | .refused _ => (s, .unsupported)
      | .fault f => (s, .stuck f)
    else (s, .outOfRange)
  | .cont => (s, .notAwaitingInput)
  | .halt => (s, .notAwaitingInput)
  | .alarm _ => (s, .notAwaitingInput)

/-- R240 `Reset`: accepted in every status; it keeps nothing. (The report: assumption log 17.) -/
def resetTx (s : State) : State × Report := (leaveAlarm s, .ok)

/-- R224 `ReadOut`: the whole state is what the host reads, and nothing changes. (The report: assumption log
17.) -/
def readOut (s : State) : State × Report := (s, .ok)

/-- R40: one transaction. -/
def transact (tx : Transaction) (s : State) : State × Report :=
  match tx with
  | .reset => resetTx s
  | .loadPinboard p cells => loadPinboard p cells s
  | .removePinboard p => removePinboard p s
  | .setAcc v => setAccTx v s
  | .setSec v => setSecTx v s
  | .setCtl r d => setCtlTx r d s
  | .setMem t o v => setMemTx t o v s
  | .selectPinboard p => selectPinboard p s
  | .step => stepTx s
  | .supplyInput v => supplyInput v s
  | .readOut => readOut s

/-- R246: a sequence of transactions, in order. -/
def runTransactions : List Transaction → State → State
  | [], s => s
  | tx :: rest, s => runTransactions rest (transact tx s).1

end Sys2Proof.Machine
end

