-- ==== Sys2Proof/Safety.lean ====
section
/-!
DEFINITION. What counts as a sound state and a good end of a run, in the terms the statements use: the invariant of rule R42
of `10_state.md`, the end of a run (R246), the legal edges of the status (R210), and the reachable states.
-/

namespace Sys2Proof.Machine

/-- R200: the (kind, cause) pairs of the table of execution errors. -/
def Err.listed (e : Err) : Bool :=
  e = Err.missingPinboard || e = Err.unwired || e = Err.uncovered || e = Err.badImage || e = Err.cell
    || e = Err.target || e = Err.overflow || e = Err.divisionByZero

/-- R42: each element lies in its type; with R31 and R37 (in `Keyboard`, pc names a pending `K`), R32 and R200 (an alarm
carries a listed error), and the canonical form of the data memory. The ranges of `E F X Y`, the number of slots and of
cells and the vocabulary of a wired cell are in the types. -/
structure State.Inv (s : State) : Prop where
  acc : InWord12 s.acc
  sec : InWord11 s.sec
  cp : 1 ≤ s.cp ∧ s.cp ≤ Config.numSlots
  cursors : ∀ p b, s.slot p = some b → b.cur < Config.capacity
  memForm : s.mem.wf
  memWords : ∀ c ∈ s.mem, InWord12 c.2
  printed : ∀ v, Event.print v ∈ s.out → InWord12 v
  pendingKey : s.status = .keyboard → fetch s = .ok (.keyboard none none)
  alarmListed : ∀ e, s.status = .alarm e → e.listed = true

/-- R246: a run has ended. -/
def State.ended (s : State) : Bool :=
  match s.status with
  | .halt => true
  | .alarm _ => true
  | .cont => false
  | .keyboard => false

/-- R246: the good end: the program moved past its last wired position. -/
def State.endedWell (s : State) : Bool := s.status = .halt

/-- R246: the bad end: an execution error. -/
def State.endedBadly (s : State) : Bool := s.ended && !s.endedWell

/-- R210: the legal edges of the status under `Step`. -/
inductive StepEdge : Status → Status → Prop where
  | contCont : StepEdge .cont .cont
  | contKeyboard : StepEdge .cont .keyboard
  | contHalt : StepEdge .cont .halt
  | contAlarm (e : Err) : StepEdge .cont (.alarm e)
  | keyboard : StepEdge .keyboard .keyboard
  | halt : StepEdge .halt .halt
  | alarm (e : Err) : StepEdge (.alarm e) (.alarm e)

/-- R210: the legal edges of the status under any transaction, in the table's order: steps, preloads and loads, the
supplied input, the reset. -/
inductive TransactEdge : Transaction → Status → Status → Prop where
  | byStep {a b : Status} (h : StepEdge a b) : TransactEdge .step a b
  | supplied (v : Int) : TransactEdge (.supplyInput v) .keyboard .cont
  | suppliedLast (v : Int) : TransactEdge (.supplyInput v) .keyboard .halt
  | byReset (a : Status) : TransactEdge .reset a .cont
  | stays (tx : Transaction) (a : Status) (h : tx ≠ .reset) : TransactEdge tx a a

/-- R246: a state some sequence of transactions leads to from `Reset`. -/
def Reachable (s : State) : Prop := ∃ txs : List Transaction, runTransactions txs State.reset = s

end Sys2Proof.Machine
end

