-- ==== Sys2Proof/Certificates/Slice0/Obligations.lean ====
section
/-!
DEFINITION. The statements for the provers, each `def Obligations.<Name> : Prop`, and the few predicates they are written
with. A docstring names the rule a statement formalises; where a clause rests on a decision the spec marks as its own
(D<n> of 92_eei_decisions.md) or on an inference it marks as derived, the docstring says which.
-/

namespace Sys2Proof.Claims

open Sys2Proof.Machine

/-- R34: `l` is the greatest wired position, said position by position. -/
abbrev IsLast (b : Pinboard) (l : Nat) : Prop :=
  (b.cell l).isSome ∧ ∀ q, q < Config.capacity → l < q → b.cell q = none

/-- The current slot holds the pinboard `b` and its last wired position is `l`: what an instruction that advances needs
of the state. -/
abbrev Ready (s : State) (b : Pinboard) (l : Nat) : Prop := s.slot s.cp = some b ∧ IsLast b l

/-- The cursor of slot `p`; `none` where the slot is empty. -/
def curAt (s : State) (p : Nat) : Option Nat := (s.slot p).map fun b => b.cur

/-- The instruction in cell `q` of slot `p`, if there is one. -/
def cellAt (s : State) (p q : Nat) : Option Instr := (s.slot p).bind fun b => b.cell q

/-- `E F X Y` are unchanged. -/
def CtlKept (s u : State) : Prop := ∀ r, u.ctl r = s.ctl r

/-- Every word of the data memory reads as before. -/
def MemKept (s u : State) : Prop := ∀ a, u.mem.read a = s.mem.read a

/-- Every cell of every pinboard is as before. -/
def CellsKept (s u : State) : Prop := ∀ p q, cellAt u p q = cellAt s p q

/-- Every slot is as loaded as before and every cursor is as before. -/
def CursorsKept (s u : State) : Prop := ∀ p, curAt u p = curAt s p

/-- R107, with decision D5: the current pinboard's cursor, at `cur`, moves on by one below `l`, the last wired position; at
`l` it stays and the status becomes `Halt`. No other cursor moves and `CP` stays. -/
def Advanced (s u : State) (cur l : Nat) : Prop :=
  u.cp = s.cp ∧
    (cur < l → u.status = s.status ∧ ∀ p, curAt u p = if p = s.cp then some (cur + 1) else curAt s p) ∧
    (l ≤ cur → u.status = .halt ∧ CursorsKept s u)

/-- The answer is the alarm `e`, with every other element of the state as it was (R108). -/
def Alarms (r : Result) (s : State) (e : Err) : Prop := r = .next { s with status := .alarm e }

/-- R104: the resolved operands of an instruction that takes both. -/
abbrev Both (s : State) (t : Option TensDigit) (o : Option OnesDigit) (a n : Nat) : Prop :=
  resolveTens s t = some a ∧ resolveOnes s o = .ok (some n)

/-- R104: the resolved operands of an instruction that takes at least one. -/
abbrev Some1 (s : State) (t : Option TensDigit) (o : Option OnesDigit) (tn on : Option Nat) : Prop :=
  resolveTens s t = tn ∧ resolveOnes s o = .ok on ∧ (tn.isSome ∨ on.isSome)

/-- Two answers are the same but for the content of `SEC`. -/
def SameButSec : Result → Result → Prop
  | .next u, .next u' => ∃ v, u' = u.setSec v
  | .fault f, .fault f' => f = f'
  | .refused r, .refused r' => r = r'
  | _, _ => False

/-- Two answers are the same but for the content of the data memory. -/
def SameButMem : Result → Result → Prop
  | .next u, .next u' => ∃ m, u' = { u with mem := m }
  | .fault f, .fault f' => f = f'
  | .refused r, .refused r' => r = r'
  | _, _ => False

end Sys2Proof.Claims

open Sys2Proof Sys2Proof.Machine Sys2Proof.Claims

/-! ### The step: fetch, refusal, substitution, shape -/

/-- R106, R111 over the encoding of R75 (decision D6): in `Continue`, where the cell word at pc decodes to an instruction, the
step is that instruction run on that state; nothing is added around it. -/
def Obligations.StepRunsTheDecodedInstruction : Prop :=
  ∀ (s : State) (i : Instr), s.status = .cont → decodeCell (pcWord s) = .ok i → step s = exec i s

/-- The model's `withFetchWord` (assumption log 12) stands for the host's loading of a cell: the very next step runs the
word's instruction, and nothing the fetch does not need has changed. Every element of the state after it is named: the
current pinboard stays, or is 1 where it named no slot; every other slot stays; a loaded pinboard keeps its cursor, or gets
cursor 0 where it was out of range, and keeps every other cell; an empty slot gets a pinboard with the one cell. -/
def Obligations.PlacedWordIsRunByTheNextStep : Prop :=
  ∀ (s : State) (nbits w : Nat) (i : Instr), decodeTableWord nbits w = some i →
    ∃ u, s.withFetchWord nbits w = u ∧ u.status = .cont ∧ fetch u = .ok i ∧ step u = exec i u ∧
      u.acc = s.acc ∧ u.sec = s.sec ∧ u.mem = s.mem ∧ CtlKept s u ∧ u.out = s.out ∧
      u.cp = (if 1 ≤ s.cp ∧ s.cp ≤ 8 then s.cp else 1) ∧ (∀ p, p ≠ u.cp → u.slot p = s.slot p) ∧
      (∀ b, s.slot u.cp = some b →
        curAt u u.cp = some (if b.cur < Config.capacity then b.cur else 0) ∧
          ∀ q, cellAt u u.cp q = if curAt u u.cp = some q then some i else b.cell q) ∧
      (s.slot u.cp = none → curAt u u.cp = some 0 ∧ ∀ q, cellAt u u.cp q = if q = 0 then some i else none)

/-- R101 (decisions D18 for the cause, D28 for what beside the registers stays; R102 and R106 for the second clause): a step
with the current slot empty raises MissingPinboard and leaves everything else unchanged; with a pinboard in
it, the cell looked up is that pinboard's, at its cursor. -/
def Obligations.EmptySlotRaisesMissingPinboard : Prop :=
  ∀ s : State, s.status = .cont →
    (s.slot s.cp = none → Alarms (step s) s ⟨.missingPinboard, .none⟩) ∧
    (∀ b i, s.slot s.cp = some b → b.cell b.cur = some i → step s = exec i s)

/-- R102 (decisions D18 for the cause, D28 for what stays): an unwired position raises MissingInstruction/Unwired; a wired one is fetched, and the fetch changes no cell. -/
def Obligations.UnwiredCellRaisesMissingInstruction : Prop :=
  ∀ (s : State) (b : Pinboard), s.status = .cont → s.slot s.cp = some b →
    (b.cell b.cur = none → Alarms (step s) s ⟨.missingInstruction, .unwired⟩) ∧
    (∀ i, b.cell b.cur = some i → fetch s = .ok i ∧ step s = exec i s)

/-- R100, R109, with decision D9: outside `Continue` a `Step` changes nothing at all and reports why; in `Continue`, where
the step answers a next state, that is the state after it, and the report is `Err` with the error of the alarm, or `Ok`
where that state is in no alarm. (The refusal of a step is StarAndVeeAreUnsupported's.) -/
def Obligations.StepOutsideContinueChangesNothing : Prop :=
  ∀ s : State,
    (s.status = .halt → step s = .next s ∧ transact .step s = (s, .notRunning)) ∧
    (∀ e, s.status = .alarm e → step s = .next s ∧ transact .step s = (s, .notRunning)) ∧
    (s.status = .keyboard → step s = .next s ∧ transact .step s = (s, .awaitingInput)) ∧
    (s.status = .cont → ∀ u, step s = .next u →
      (∀ e, u.status = .alarm e → transact .step s = (u, .err e)) ∧
      ((∀ e, u.status ≠ .alarm e) → transact .step s = (u, .ok)))

/-- R103 (decision D19; the refusal as an outcome is assumption log 7): a ones digit `*` or `V` is refused whatever the
opcode, the tens digit and the state are; the step changes nothing and reports `Unsupported`, and so does every later
one. -/
def Obligations.StarAndVeeAreUnsupported : Prop :=
  ∀ (s : State) (i : Instr), (i.ones = some .star ∨ i.ones = some .vee) →
    exec i s = .refused .unsupported ∧
    (s.status = .cont → fetch s = .ok i →
      step s = .refused .unsupported ∧ transact .step s = (s, .unsupported))

/-- R104: what each placeholder is resolved to, that a literal and an absent operand stay, that presence does not change and
the resolved digits are 0 to 9 and 0 to 15; and that resolution is made on a copy: no instruction but `A` changes a stored
cell, so the same position resolves anew at each pass. -/
def Obligations.SubstitutionUsesTheControlRegisters : Prop :=
  ∀ s : State,
    resolveTens s none = none ∧ (∀ d : Fin 10, resolveTens s (some (.lit d)) = some d.val) ∧
    resolveTens s (some .regE) = some s.ctlE.val ∧ resolveTens s (some .regX) = some s.ctlX.val ∧
    resolveOnes s none = .ok none ∧ (∀ n : Fin 16, resolveOnes s (some (.lit n)) = .ok (some n.val)) ∧
    resolveOnes s (some .regE) = .ok (some s.ctlE.val) ∧ resolveOnes s (some .regF) = .ok (some s.ctlF.val) ∧
    resolveOnes s (some .regY) = .ok (some s.ctlY.val) ∧
    (∀ t, (resolveTens s t).isSome = t.isSome ∧ ∀ a, resolveTens s t = some a → a ≤ 9) ∧
    (∀ o on, resolveOnes s o = .ok on → on.isSome = o.isSome ∧ ∀ n, on = some n → n ≤ 15) ∧
    ∀ (i : Instr) (u : State), i.op ≠ .alter → step s = .next u → fetch s = .ok i → CellsKept s u ∧ CtlKept s u

/-- R105 with the shape table of R77 (decision D7): an uncovered operand combination, and only that, raises
MissingInstruction/Uncovered. -/
def Obligations.UncoveredShapeRaisesMissingInstruction : Prop :=
  ∀ (s : State) (i : Instr), i.ones ≠ some .star → i.ones ≠ some .vee →
    (i.wellFormed = false → Alarms (exec i s) s ⟨.missingInstruction, .uncovered⟩) ∧
    (i.wellFormed = true → s.status ≠ .alarm ⟨.missingInstruction, .uncovered⟩ →
      ∀ u, exec i s = .next u → u.status ≠ .alarm ⟨.missingInstruction, .uncovered⟩)

/-- R108, R204 (decision D28): an instruction that ends in an alarm has changed nothing but the status, and the error is one
of the table of R200. -/
def Obligations.ExecutionErrorsArePrecise : Prop :=
  ∀ (i : Instr) (s u : State) (e : Err), exec i s = .next u → u.status = .alarm e → s.status ≠ .alarm e →
    u = { s with status := .alarm e } ∧ e.listed = true

/-- R102 (last sentence) and R103, derived: a step never ends in a fault of the model, and is refused exactly at a fetched
`*` or `V`. -/
def Obligations.StepStopsOnlyAtStarOrVee : Prop :=
  ∀ s : State, (∀ f, step s ≠ .fault f) ∧
    ∀ r, step s = .refused r ↔
      r = .unsupported ∧ s.status = .cont ∧ ∃ i, fetch s = .ok i ∧ (i.ones = some .star ∨ i.ones = some .vee)

/-! ### Input and output -/

/-- R120 (decisions D6 in the encoding, D7 in the shape, D9 and D22 while it waits): `K` sets the status to `Keyboard` and
nothing else: pc still names it and `ACC` keeps its value; while it waits a `Step` is the no-op AwaitingInput, and nothing but
`SupplyInput` and `Reset` changes the state; with an operand present it is uncovered. -/
def Obligations.KeyboardReadSuspends : Prop :=
  (∀ s : State, ∃ u, exec (.keyboard none none) s = .next u ∧ u = { s with status := .keyboard } ∧
    transact .step u = (u, .awaitingInput) ∧
    ∀ tx, tx ≠ .reset → (∀ v, tx ≠ .supplyInput v) → (transact tx u).1 = u) ∧
  (∀ (s : State) (t : Option TensDigit) (o : Option OnesDigit), (t ≠ none ∨ o ≠ none) →
    o ≠ some .star → o ≠ some .vee → Alarms (exec (.keyboard t o) s) s ⟨.missingInstruction, .uncovered⟩) ∧
  encode (.keyboard none none) = 0x1009999#25

/-- R122 (decision D10: `ACC` alone; D5 in the advance): `P` emits the accumulator and advances. -/
def Obligations.PrintEmitsTheAccumulator : Prop :=
  ∀ (s : State) (b : Pinboard) (l : Nat), Ready s b l →
    ∃ u, exec (.print none none) s = .next u ∧ u.out = s.out ++ [.print s.acc] ∧
      u.acc = s.acc ∧ u.sec = s.sec ∧ MemKept s u ∧ CtlKept s u ∧ CellsKept s u ∧ Advanced s u b.cur l

/-- R121 (decision D8), R210 (conflict C4): `SupplyInput` completes `K`: a word in range goes to `ACC`, the status to
`Continue`, and the cursor advances, which may halt; a word out of range, or a supply outside `Keyboard`, changes
nothing. -/
def Obligations.SupplyInputCompletesTheKeyboardRead : Prop :=
  ∀ (s : State) (v : Int),
    (s.status ≠ .keyboard → transact (.supplyInput v) s = (s, .notAwaitingInput)) ∧
    (s.status = .keyboard → ¬ InWord12 v → transact (.supplyInput v) s = (s, .outOfRange)) ∧
    (∀ b l, s.status = .keyboard → InWord12 v → Ready s b l →
      ∃ u, transact (.supplyInput v) s = (u, .ok) ∧ u.acc = v ∧ u.sec = s.sec ∧ MemKept s u ∧ CtlKept s u ∧
        CellsKept s u ∧ u.out = s.out ∧ Advanced { s with status := .cont } u b.cur l)

/-! ### Data movement -/

/-- R130 (D5 in the advance): `W` stores the accumulator in the one word its resolved operands name, computed as the meaning
computes it; every other word reads as before. -/
def Obligations.WriteStoresTheAccumulator : Prop :=
  ∀ (s : State) (t : Option TensDigit) (o : Option OnesDigit) (a n : Nat) (b : Pinboard) (l : Nat),
    Ready s b l → s.mem.wf → Both s t o a n → n ≤ 9 →
    ∃ u, exec (.write t o) s = .next u ∧ u.word a n = s.acc ∧
      (∀ c, c ≠ dataAddr a n → u.mem.read c = s.mem.read c) ∧
      u.acc = s.acc ∧ u.sec = s.sec ∧ CtlKept s u ∧ CellsKept s u ∧ u.out = s.out ∧ Advanced s u b.cur l

/-- R131 (D5 in the advance): `R` loads the addressed word. -/
def Obligations.ReadLoadsTheAddressedWord : Prop :=
  ∀ (s : State) (t : Option TensDigit) (o : Option OnesDigit) (a n : Nat) (b : Pinboard) (l : Nat),
    Ready s b l → Both s t o a n → n ≤ 9 →
    ∃ u, exec (.read t o) s = .next u ∧ u.acc = s.word a n ∧
      u.sec = s.sec ∧ MemKept s u ∧ CtlKept s u ∧ CellsKept s u ∧ u.out = s.out ∧ Advanced s u b.cur l

/-- R132 (D1 in the bound, D5 in the advance): `B` copies the accumulator into `SEC` where it fits eleven digits. -/
def Obligations.CopyToSecondaryKeepsTheAccumulator : Prop :=
  ∀ (s : State) (b : Pinboard) (l : Nat), Ready s b l → s.acc.natAbs < 10 ^ 11 →
    ∃ u, exec (.accToSec none none) s = .next u ∧ u.sec = s.acc ∧ u.acc = s.acc ∧
      MemKept s u ∧ CtlKept s u ∧ CellsKept s u ∧ u.out = s.out ∧ Advanced s u b.cur l

/-- R56: a word written and then read back is the word written, whatever `ACC` holds in between (D5 in the advances). -/
def Obligations.WriteThenReadGivesTheWordBack : Prop :=
  ∀ (s : State) (t : Option TensDigit) (o : Option OnesDigit) (a n : Nat) (b : Pinboard) (l : Nat) (v : Int),
    Ready s b l → s.mem.wf → Both s t o a n → n ≤ 9 →
    ∃ u w, exec (.write t o) s = .next u ∧ exec (.read t o) (u.setAcc v) = .next w ∧ w.acc = s.acc ∧
      MemKept u w

/-- R51, R50: the one accessor: outside the grid it fails, in reading and in writing; inside it, it reads the word, and a
write changes that word and no other of the hundred. -/
def Obligations.AccessorChecksBothDigits : Prop :=
  ∀ (s : State) (t o : Nat) (v : Int),
    (9 < t ∨ 9 < o → memRead s t o = .error ⟨.invalidMemory, .cell⟩ ∧ memWrite s t o v = .error ⟨.invalidMemory, .cell⟩) ∧
    (t ≤ 9 → o ≤ 9 → memRead s t o = .ok (s.word t o) ∧
      (s.mem.wf → ∃ u, memWrite s t o v = .ok u ∧ u.word t o = v ∧
        (∀ t' o', t' ≤ 9 → o' ≤ 9 → (t' ≠ t ∨ o' ≠ o) → u.word t' o' = s.word t' o') ∧ { u with mem := s.mem } = s))

/-- R51, R130, R131, R147 to R150 (order of R111, decision D20): a resolved ones digit above 9 raises InvalidMemory/Cell in
each of the six memory opcodes, whatever the words are. -/
def Obligations.MemoryDigitAboveNineRaisesInvalidMemory : Prop :=
  ∀ (s : State) (i : Instr) (a n : Nat),
    i.op ∈ [Opcode.write, .read, .add, .sub, .mul, .div] → Both s i.tens i.ones a n → 9 < n →
    Alarms (exec i s) s ⟨.invalidMemory, .cell⟩

/-! ### Arithmetic -/

/-- R141, R142, R143 (decision D1 for the symmetric bounds and for what rests on them): the pure range checks of the ALU: a
result inside its bound is returned exactly, one outside it fails (with `Overflow`, or, at the host's boundary, with the
`OutOfRange` the absent value stands for), and a subtraction is the addition of the negated operand, which is always a word. -/
def Obligations.AluChecksRangesExactly : Prop :=
  ∀ a b : Int,
    (construct12 a = if a.natAbs ≤ 999999999999 then some a else none) ∧
    (construct11 a = if a.natAbs ≤ 99999999999 then some a else none) ∧
    (add12 a b = if (a + b).natAbs ≤ 999999999999 then .ok (a + b) else .error ⟨.overflow, .none⟩) ∧
    (sub12 a b = if (a - b).natAbs ≤ 999999999999 then .ok (a - b) else .error ⟨.overflow, .none⟩) ∧
    (narrow11 a = if a.natAbs ≤ 99999999999 then .ok a else .error ⟨.overflow, .none⟩) ∧
    sub12 a b = add12 a (-b) ∧ (InWord12 b → InWord12 (-b)) ∧
    (InWord12 a → InWord12 b → (a + b).natAbs ≤ 1999999999998 ∧ (a - b).natAbs ≤ 1999999999998)

/-- R147 (D1 in the bound, D5 in the advance): `+` adds the addressed word into the accumulator where the sum fits. -/
def Obligations.AddSumsIntoTheAccumulator : Prop :=
  ∀ (s : State) (t : Option TensDigit) (o : Option OnesDigit) (a n : Nat) (b : Pinboard) (l : Nat),
    Ready s b l → Both s t o a n → n ≤ 9 → (s.acc + s.word a n).natAbs < 10 ^ 12 →
    ∃ u, exec (.add t o) s = .next u ∧ u.acc = s.acc + s.word a n ∧
      u.sec = s.sec ∧ MemKept s u ∧ CtlKept s u ∧ CellsKept s u ∧ u.out = s.out ∧ Advanced s u b.cur l

/-- R148 (D1 in the bound, D5 in the advance): `−` subtracts the addressed word from the accumulator. -/
def Obligations.SubtractTakesTheWordFromTheAccumulator : Prop :=
  ∀ (s : State) (t : Option TensDigit) (o : Option OnesDigit) (a n : Nat) (b : Pinboard) (l : Nat),
    Ready s b l → Both s t o a n → n ≤ 9 → (s.acc - s.word a n).natAbs < 10 ^ 12 →
    ∃ u, exec (.sub t o) s = .next u ∧ u.acc = s.acc - s.word a n ∧
      u.sec = s.sec ∧ MemKept s u ∧ CtlKept s u ∧ CellsKept s u ∧ u.out = s.out ∧ Advanced s u b.cur l

/-- R149, R144 (decision D11: both parts take the product's sign; D5 in the advance): below 10^23 the product is split
exactly between `ACC` (twelve digits) and `SEC` (eleven digits). -/
def Obligations.MultiplySplitsTheProduct : Prop :=
  ∀ (s : State) (t : Option TensDigit) (o : Option OnesDigit) (a n : Nat) (b : Pinboard) (l : Nat),
    Ready s b l → Both s t o a n → n ≤ 9 → (s.acc * s.word a n).natAbs < 10 ^ 23 →
    ∃ u, exec (.mul t o) s = .next u ∧ u.acc + 10 ^ 12 * u.sec = s.acc * s.word a n ∧
      u.acc.natAbs < 10 ^ 12 ∧ u.sec.natAbs < 10 ^ 11 ∧
      (0 ≤ s.acc * s.word a n → 0 ≤ u.acc ∧ 0 ≤ u.sec) ∧
      (s.acc * s.word a n ≤ 0 → u.acc ≤ 0 ∧ u.sec ≤ 0) ∧
      MemKept s u ∧ CtlKept s u ∧ CellsKept s u ∧ u.out = s.out ∧ Advanced s u b.cur l

/-- R150, R145 (decision D12: the dividend is `ACC` alone, the quotient truncates toward zero, the remainder has the
dividend's sign; D5 in the advance): quotient to `ACC`, remainder to `SEC`. -/
def Obligations.DivideGivesQuotientAndRemainder : Prop :=
  ∀ (s : State) (t : Option TensDigit) (o : Option OnesDigit) (a n : Nat) (b : Pinboard) (l : Nat),
    Ready s b l → Both s t o a n → n ≤ 9 → s.word a n ≠ 0 → (s.acc.tmod (s.word a n)).natAbs < 10 ^ 11 →
    ∃ u, exec (.div t o) s = .next u ∧ s.acc = u.acc * s.word a n + u.sec ∧
      u.sec.natAbs < (s.word a n).natAbs ∧ (0 ≤ s.acc → 0 ≤ u.sec) ∧ (s.acc ≤ 0 → u.sec ≤ 0) ∧
      u.acc.natAbs ≤ s.acc.natAbs ∧
      MemKept s u ∧ CtlKept s u ∧ CellsKept s u ∧ u.out = s.out ∧ Advanced s u b.cur l

/-- R147, R148, R132 (D1 in the bounds): a sum, a difference or a copy that does not fit raises Overflow with no partial
write. -/
def Obligations.ResultOutOfRangeRaisesOverflow : Prop :=
  ∀ (s : State) (t : Option TensDigit) (o : Option OnesDigit) (a n : Nat), Both s t o a n → n ≤ 9 →
    (10 ^ 12 ≤ (s.acc + s.word a n).natAbs → Alarms (exec (.add t o) s) s ⟨.overflow, .none⟩) ∧
    (10 ^ 12 ≤ (s.acc - s.word a n).natAbs → Alarms (exec (.sub t o) s) s ⟨.overflow, .none⟩) ∧
    (10 ^ 11 ≤ s.acc.natAbs → Alarms (exec (.accToSec none none) s) s ⟨.overflow, .none⟩)

/-- R149, R144 (conflict C3): a product of magnitude 10^23 or more raises Overflow: its high-order part needs a twelfth
digit. -/
def Obligations.ProductFromTenToThe23RaisesOverflow : Prop :=
  ∀ (s : State) (t : Option TensDigit) (o : Option OnesDigit) (a n : Nat), Both s t o a n → n ≤ 9 →
    10 ^ 23 ≤ (s.acc * s.word a n).natAbs → Alarms (exec (.mul t o) s) s ⟨.overflow, .none⟩

/-- R150, R145 (D12 in the remainder): a zero divisor raises DivisionByZero, for a zero dividend too; a remainder of twelve
digits raises Overflow. -/
def Obligations.DivisionErrorsLeaveTheRegisters : Prop :=
  ∀ (s : State) (t : Option TensDigit) (o : Option OnesDigit) (a n : Nat), Both s t o a n → n ≤ 9 →
    (s.word a n = 0 → Alarms (exec (.div t o) s) s ⟨.divisionByZero, .none⟩) ∧
    (s.word a n ≠ 0 → 10 ^ 11 ≤ (s.acc.tmod (s.word a n)).natAbs →
      Alarms (exec (.div t o) s) s ⟨.overflow, .none⟩)

/-! ### Targets, self-modification and control transfer -/

/-- R110, the default policy (decision D13): an absent tens names the current pinboard, an absent ones that pinboard's own
cursor; slot numbers 0 and 9, an empty slot and a position beyond the pinboard have no target. -/
def Obligations.TargetResolutionNamesPinboardAndPosition : Prop :=
  ∀ (s : State) (tn on : Option Nat) (p q : Nat),
    resolveTarget s tn on = some (p, q) ↔
      (p = match tn with | some d => d | none => s.cp) ∧ 1 ≤ p ∧ p ≤ 8 ∧ q < 16 ∧
        ∃ cur, curAt s p = some cur ∧ q = match on with | some m => m | none => cur

/-- R160, R161 (decisions D13, D16; D5 and D26 in the advance): `A` writes the instruction whose image is in `ACC` into the
target cell, exactly that cell changes, and the advance sees it. -/
def Obligations.AlterWiresTheTargetCell : Prop :=
  ∀ (s : State) (t : Option TensDigit) (o : Option OnesDigit) (tn on : Option Nat) (p q : Nat) (i : Instr)
    (b : Pinboard) (l : Nat),
    Some1 s t o tn on → resolveTarget s tn on = some (p, q) → s.acc = image i →
    s.slot s.cp = some b → IsLast (if p = s.cp then b.withCell q i else b) l →
    ∃ u, exec (.alter t o) s = .next u ∧
      (∀ p' q', cellAt u p' q' = if p' = p ∧ q' = q then some i else cellAt s p' q') ∧
      u.acc = s.acc ∧ u.sec = s.sec ∧ MemKept s u ∧ CtlKept s u ∧ u.out = s.out ∧ Advanced s u b.cur l

/-- R160, R203 (decision D16 in the error class, D20 in the order): a target that does not exist raises
InvalidMemory/Target, before the image is looked at; then an accumulator that is the image of no instruction raises
MissingInstruction/BadImage. -/
def Obligations.AlterChecksTargetThenImage : Prop :=
  ∀ (s : State) (t : Option TensDigit) (o : Option OnesDigit) (tn on : Option Nat), Some1 s t o tn on →
    (resolveTarget s tn on = none → Alarms (exec (.alter t o) s) s ⟨.invalidMemory, .target⟩) ∧
    (resolveTarget s tn on ≠ none → (∀ i : Instr, s.acc ≠ image i) →
      Alarms (exec (.alter t o) s) s ⟨.missingInstruction, .badImage⟩)

/-- R62, R161 (c) (decision D16 in the image): a cell written by `A` is what a transfer to it fetches next, with nothing in
between. -/
def Obligations.AlteredCellIsFetchedNext : Prop :=
  ∀ (s : State) (d : Fin 10) (n : Fin 16) (i : Instr) (b bt : Pinboard) (l : Nat),
    s.slot d.val = some bt → s.acc = image i →
    s.slot s.cp = some b → IsLast (if d.val = s.cp then b.withCell n.val i else b) l →
    ∃ u w, exec (.alter (some (.lit d)) (some (.lit n))) s = .next u ∧
      exec (.transfer (some (.lit d)) (some (.lit n))) u = .next w ∧ w.cp = d.val ∧ fetch w = .ok i

/-- R170 (decisions D13, D27): `U` sets pc to its target and changes nothing else; the pinboard it leaves keeps its
cursor. -/
def Obligations.TransferSetsOnlyThePc : Prop :=
  ∀ (s : State) (t : Option TensDigit) (o : Option OnesDigit) (tn on : Option Nat) (p q : Nat),
    Some1 s t o tn on → resolveTarget s tn on = some (p, q) →
    ∃ u, exec (.transfer t o) s = .next u ∧ u.cp = p ∧
      (∀ p', curAt u p' = if p' = p then some q else curAt s p') ∧ u.status = s.status ∧
      u.acc = s.acc ∧ u.sec = s.sec ∧ MemKept s u ∧ CtlKept s u ∧ CellsKept s u ∧ u.out = s.out

/-- R171, R172 (decisions D13, D14, D27): `C` with a negative accumulator is taken, and then it is `U` in every respect. -/
def Obligations.ConditionalTransferTakenWhenNegative : Prop :=
  ∀ (s : State) (t : Option TensDigit) (o : Option OnesDigit) (tn on : Option Nat) (p q : Nat),
    Some1 s t o tn on → s.acc < 0 → resolveTarget s tn on = some (p, q) →
    ∃ u, exec (.condTransfer t o) s = .next u ∧ exec (.transfer t o) s = .next u ∧ u.cp = p ∧
      (∀ p', curAt u p' = if p' = p then some q else curAt s p') ∧ u.status = s.status ∧
      u.acc = s.acc ∧ u.sec = s.sec ∧ MemKept s u ∧ CtlKept s u ∧ CellsKept s u ∧ u.out = s.out

/-- R171, R172 (decisions D14, D15; D5 in the advance): `C` with an accumulator of zero or more falls through, whether its
target exists or not. -/
def Obligations.ConditionalTransferFallsThrough : Prop :=
  ∀ (s : State) (t : Option TensDigit) (o : Option OnesDigit) (tn on : Option Nat) (b : Pinboard) (l : Nat),
    Some1 s t o tn on → 0 ≤ s.acc → Ready s b l →
    ∃ u, exec (.condTransfer t o) s = .next u ∧
      u.acc = s.acc ∧ u.sec = s.sec ∧ MemKept s u ∧ CtlKept s u ∧ CellsKept s u ∧ u.out = s.out ∧
      Advanced s u b.cur l

/-- R170, R171 (decision D29): a target that does not exist raises InvalidMemory/Target in `U`, and in `C` when it is
taken. -/
def Obligations.MissingTransferTargetRaisesInvalidMemory : Prop :=
  ∀ (s : State) (t : Option TensDigit) (o : Option OnesDigit) (tn on : Option Nat),
    Some1 s t o tn on → resolveTarget s tn on = none →
    Alarms (exec (.transfer t o) s) s ⟨.invalidMemory, .target⟩ ∧
    (s.acc < 0 → Alarms (exec (.condTransfer t o) s) s ⟨.invalidMemory, .target⟩)

/-- R173 (decisions D6 in the encoding, D7 in the shape): `H` sets the current pinboard's cursor to position 0 and changes
nothing else; it never advances and never halts, not even at the last wired position; with an operand present it is
uncovered. -/
def Obligations.HomeResetsTheCursor : Prop :=
  (∀ (s : State) (b : Pinboard), s.slot s.cp = some b →
    ∃ u, exec (.home none none) s = .next u ∧ u.cp = s.cp ∧
      (∀ p, curAt u p = if p = s.cp then some 0 else curAt s p) ∧ u.status = s.status ∧
      u.acc = s.acc ∧ u.sec = s.sec ∧ MemKept s u ∧ CtlKept s u ∧ CellsKept s u ∧ u.out = s.out) ∧
  (∀ (s : State) (t : Option TensDigit) (o : Option OnesDigit), (t ≠ none ∨ o ≠ none) →
    o ≠ some .star → o ≠ some .vee → Alarms (exec (.home t o) s) s ⟨.missingInstruction, .uncovered⟩) ∧
  encode (.home none none) = 0x1129999#25

/-- R174 (decisions D17, D5): `S` moves the cursor by its resolved tens digit, or, where that is past the last wired
position, leaves it and halts. -/
def Obligations.StepMovesTheCursorByItsDigit : Prop :=
  ∀ (s : State) (t : Option TensDigit) (n : Nat) (b : Pinboard) (l : Nat),
    Ready s b l → resolveTens s t = some n →
    ∃ u, exec (.stepBy t none) s = .next u ∧ u.cp = s.cp ∧
      (b.cur + n ≤ l → u.status = s.status ∧
        ∀ p, curAt u p = if p = s.cp then some (b.cur + n) else curAt s p) ∧
      (l < b.cur + n → u.status = .halt ∧ CursorsKept s u) ∧
      u.acc = s.acc ∧ u.sec = s.sec ∧ MemKept s u ∧ CtlKept s u ∧ CellsKept s u ∧ u.out = s.out

/-- R175, R107, R174 (decision D5): the only way to `Halt` is to move past the last wired position, as the pinboard stands
after the instruction's own effect: by `S` with its own increment, by any other with the default one; the cursor then
stays. `K`, `U` and `H` never halt. -/
def Obligations.HaltMeansPastTheLastWiredPosition : Prop :=
  ∀ (i : Instr) (s u : State), exec i s = .next u → s.status ≠ .halt → u.status = .halt →
    i.op ≠ .keyboard ∧ i.op ≠ .transfer ∧ i.op ≠ .home ∧ u.cp = s.cp ∧ CursorsKept s u ∧
    ∃ b l, u.slot u.cp = some b ∧ IsLast b l ∧
      ((i.op ≠ .stepBy ∧ l < b.cur + 1) ∨ ∃ n, i.op = .stepBy ∧ resolveTens s i.tens = some n ∧ l < b.cur + n)

/-! ### What no instruction does -/

/-- R61 (with R35 and conflict C8 for `W`): no instruction both reads and writes the data memory. `W` is the only one that
writes it: it stores `ACC`, whatever word stood there, and nothing else it does depends on a word, so no store is
conditional on memory and memory can hold no reservation and no semaphore. `R + − × ÷` read the one word their operands
address and write none; of the rest of the state the four arithmetic opcodes leave `CP`, `E F X Y`, the cells and the
output. The other eight depend on no word. -/
def Obligations.OnlyWriteChangesTheDataMemory : Prop :=
  (∀ (i : Instr) (s u : State), exec i s = .next u → i.op ≠ .write → u.mem = s.mem) ∧
  (∀ (t : Option TensDigit) (o : Option OnesDigit) (s u : State) (a n : Nat),
    Both s t o a n → exec (.write t o) s = .next u →
    u.mem = if n ≤ 9 then s.mem.write (dataAddr a n) s.acc else s.mem) ∧
  (∀ (i : Instr) (s : State) (m : Memory), i.op ∉ [Opcode.read, .add, .sub, .mul, .div] →
    SameButMem (exec i s) (exec i { s with mem := m })) ∧
  (∀ (i : Instr) (s : State) (m : Memory), i.op ∈ [Opcode.read, .add, .sub, .mul, .div] →
    (∀ a n, Both s i.tens i.ones a n → n ≤ 9 → m.read (dataAddr a n) = s.mem.read (dataAddr a n)) →
    SameButMem (exec i s) (exec i { s with mem := m })) ∧
  (∀ (i : Instr) (s u : State), i.op ∈ [Opcode.add, .sub, .mul, .div] → exec i s = .next u →
    u.cp = s.cp ∧ CtlKept s u ∧ CellsKept s u ∧ u.out = s.out)

/-- R160, R52: `A` is the only instruction that writes the program store, and no instruction loads or empties a slot. -/
def Obligations.OnlyAlterChangesTheProgramStore : Prop :=
  ∀ (i : Instr) (s u : State), exec i s = .next u →
    (i.op ≠ .alter → CellsKept s u) ∧ ∀ p, (u.slot p).isSome = (s.slot p).isSome

/-- R23, R222 (decision D22): no instruction writes `E`, `F`, `X` or `Y`; of the transactions only `SetCtl`, and the reset,
change one. -/
def Obligations.OnlySetCtlWritesTheControlRegisters : Prop :=
  (∀ (i : Instr) (s u : State), exec i s = .next u → CtlKept s u) ∧
  (∀ (tx : Transaction) (s : State), tx ≠ .reset → (∀ r d, tx ≠ .setCtl r d) → CtlKept s (transact tx s).1)

/-- R22 (derived there): no instruction reads `SEC`: two states that differ in `SEC` alone step to answers that differ in
`SEC` alone. -/
def Obligations.SecondaryAccumulatorIsNeverRead : Prop :=
  (∀ (i : Instr) (s : State) (v : Int), SameButSec (exec i s) (exec i (s.setSec v))) ∧
  (∀ (s : State) (v : Int), SameButSec (step s) (step (s.setSec v)))

/-- R26, R28 (D27 for the pinboard that is left): only `U` and `C` change `CP`, never to an empty slot; no instruction moves
the cursor of a pinboard other than the one that is current after it. -/
def Obligations.OnlyTransfersChangeTheCurrentPinboard : Prop :=
  ∀ (i : Instr) (s u : State), exec i s = .next u →
    (u.cp ≠ s.cp → (i.op = .transfer ∨ i.op = .condTransfer) ∧ (u.slot u.cp).isSome) ∧
    ∀ p, p ≠ u.cp → curAt u p = curAt s p

/-- R38, R122 (decision D10): the output stream only grows, by one event, by `P`, and the event is the accumulator. -/
def Obligations.OnlyPrintExtendsTheOutput : Prop :=
  ∀ (i : Instr) (s u : State), exec i s = .next u →
    u.out = s.out ∨ (i.op = .print ∧ u.out = s.out ++ [.print s.acc])

/-! ### Reset, the invariant and the status machine -/

/-- R41, R240 (decision D21): every element of the state after `Reset`; and the first step from there, with nothing loaded,
raises MissingPinboard. That the transaction reports `Ok` is assumption log 17. -/
def Obligations.ResetLeavesTheStatedValues : Prop :=
  ∀ s : State, ∃ r, transact .reset s = (r, .ok) ∧ r = State.reset ∧ r.status = .cont ∧ (∀ p, r.slot p = none) ∧
    r.cp = 1 ∧ (∀ t o, r.word t o = 0) ∧ r.acc = 0 ∧ r.sec = 0 ∧ (∀ c, r.ctl c = 0) ∧ r.out = [] ∧
    Alarms (step r) r ⟨.missingPinboard, .none⟩

/-- R42: the reset state meets the invariant. -/
def Obligations.ResetMeetsTheInvariant : Prop := State.reset.Inv

/-- R42 (derived there; conflict C3 and the decisions the ranges rest on): every step from any state that meets the
invariant leads to one that meets it. -/
def Obligations.EveryStepKeepsTheInvariant : Prop :=
  ∀ s u : State, s.Inv → step s = .next u → u.Inv

/-- R42, R40: and so does every transaction of the host, accepted or not. -/
def Obligations.EveryTransactionKeepsTheInvariant : Prop :=
  ∀ (tx : Transaction) (s : State), s.Inv → (transact tx s).1.Inv

/-- R42, R246: every state a run reaches meets the invariant; and in every state that meets it, reached or not, no
transaction meets a fault of the model. -/
def Obligations.ReachableStatesAreNeverStuck : Prop :=
  (∀ s : State, s.Inv → ∀ (tx : Transaction) (f : Fault), (transact tx s).2 ≠ .stuck f) ∧
  ∀ s : State, Reachable s → s.Inv ∧ ∀ (tx : Transaction) (f : Fault), (transact tx s).2 ≠ .stuck f

/-- R6, R110, R172: `exec` and `step` are the machine at the default policies, and the default target policy is lawful. -/
def Obligations.DefaultPoliciesGiveTheMachine : Prop :=
  defaultPolicies.Lawful ∧ (∀ i s, execUnder defaultPolicies i s = exec i s) ∧
    ∀ s, stepUnder defaultPolicies s = step s

/-- R42, R110, R172: whatever the OPEN policies turn out to be, as long as the target policy is lawful, every step keeps the
invariant, errors stay precise, and no step ends in a fault of the model. -/
def Obligations.EveryLawfulPolicyKeepsTheInvariant : Prop :=
  ∀ pol : Policies, pol.Lawful → ∀ s : State, s.Inv →
    (∀ f, stepUnder pol s ≠ .fault f) ∧
    ∀ u, stepUnder pol s = .next u →
      u.Inv ∧ ∀ e, u.status = .alarm e → s.status ≠ .alarm e → u = { s with status := .alarm e }

/-- R205 (decision D23): `Halt` and `Alarm` are left by `Reset` alone; every other transaction changes nothing there. -/
def Obligations.OnlyResetLeavesHaltAndAlarm : Prop :=
  ∀ (s : State) (tx : Transaction), (s.status = .halt ∨ ∃ e, s.status = .alarm e) →
    (tx ≠ .reset → (transact tx s).1 = s) ∧ (tx = .reset → (transact tx s).1 = State.reset)

/-- R210 (conflict C4 for the edge from `Keyboard` to `Halt`): the status moves only along the table's edges. -/
def Obligations.StatusMovesOnlyAlongItsEdges : Prop :=
  (∀ s u : State, step s = .next u → StepEdge s.status u.status) ∧
  (∀ (tx : Transaction) (s : State), TransactEdge tx s.status (transact tx s).1.status)

/-! ### The host's loads and preloads -/

/-- R221 (decision D22; the report `Ok` of an accepted one is assumption log 17): `LoadPinboard` replaces the slot as a whole
with cursor 0, `RemovePinboard` empties it, nothing else changes; otherwise nothing changes and the report is
NotAccepted. -/
def Obligations.LoadReplacesTheSlotAsAWhole : Prop :=
  ∀ (s : State) (p : Nat) (cells : List (Option Instr)),
    (s.status = .cont → 1 ≤ p → p ≤ 8 → cells.length = 16 →
      ∃ u, transact (.loadPinboard p cells) s = (u, .ok) ∧ curAt u p = some 0 ∧
        (∀ q, cellAt u p q = (cells[q]?).join) ∧ (∀ p', p' ≠ p → u.slot p' = s.slot p') ∧
        { u with slots := s.slots } = s) ∧
    (s.status = .cont → 1 ≤ p → p ≤ 8 →
      ∃ u, transact (.removePinboard p) s = (u, .ok) ∧ u.slot p = none ∧
        (∀ p', p' ≠ p → u.slot p' = s.slot p') ∧ { u with slots := s.slots } = s) ∧
    (s.status ≠ .cont ∨ p < 1 ∨ 8 < p ∨ cells.length ≠ 16 →
      transact (.loadPinboard p cells) s = (s, .notAccepted)) ∧
    (s.status ≠ .cont ∨ p < 1 ∨ 8 < p → transact (.removePinboard p) s = (s, .notAccepted))

/-- R222 (decision D22; the report `Ok` of an accepted one is assumption log 17): each preload changes its one element, in
`Continue` and in range. -/
def Obligations.PreloadsChangeOneElement : Prop :=
  ∀ s : State, s.status = .cont →
    (∀ v : Int, v.natAbs < 10 ^ 12 → transact (.setAcc v) s = ({ s with acc := v }, .ok)) ∧
    (∀ v : Int, v.natAbs < 10 ^ 11 → transact (.setSec v) s = ({ s with sec := v }, .ok)) ∧
    (∀ (r : CtlReg) (d : Nat), d ≤ 9 → ∃ u, transact (.setCtl r d) s = (u, .ok) ∧ (u.ctl r).val = d ∧
      (∀ r', r' ≠ r → u.ctl r' = s.ctl r') ∧
      { u with ctlE := s.ctlE, ctlF := s.ctlF, ctlX := s.ctlX, ctlY := s.ctlY } = s) ∧
    (∀ (t o : Nat) (v : Int), s.mem.wf → t ≤ 9 → o ≤ 9 → v.natAbs < 10 ^ 12 →
      ∃ u, transact (.setMem t o v) s = (u, .ok) ∧ u.word t o = v ∧
        (∀ c, c ≠ dataAddr t o → u.mem.read c = s.mem.read c) ∧ { u with mem := s.mem } = s) ∧
    (∀ p : Nat, 1 ≤ p → p ≤ 8 → transact (.selectPinboard p) s = ({ s with cp := p }, .ok))

/-- R222, R201 (decision D22; where two conditions fail at once, that the status is checked before the arguments and the
address of `SetMem` before its word is assumption log 14): a preload outside `Continue`, or with an argument outside its
type, is not accepted; a word outside its range is out of range; nothing changes. -/
def Obligations.RefusedPreloadsChangeNothing : Prop :=
  ∀ (s : State) (r : CtlReg) (d t o p : Nat) (v : Int),
    (s.status ≠ .cont → ∀ tx ∈ [Transaction.setAcc v, .setSec v, .setCtl r d, .setMem t o v, .selectPinboard p],
      transact tx s = (s, .notAccepted)) ∧
    (s.status = .cont → 10 ^ 12 ≤ v.natAbs → transact (.setAcc v) s = (s, .outOfRange)) ∧
    (s.status = .cont → 10 ^ 11 ≤ v.natAbs → transact (.setSec v) s = (s, .outOfRange)) ∧
    (s.status = .cont → 10 ^ 12 ≤ v.natAbs → t ≤ 9 → o ≤ 9 → transact (.setMem t o v) s = (s, .outOfRange)) ∧
    (s.status = .cont → 9 < t ∨ 9 < o → transact (.setMem t o v) s = (s, .notAccepted)) ∧
    (s.status = .cont → 9 < d → transact (.setCtl r d) s = (s, .notAccepted)) ∧
    (s.status = .cont → p < 1 ∨ 8 < p → transact (.selectPinboard p) s = (s, .notAccepted))

/-! ### Encoding and assembler syntax -/

/-- R75, R76, R78 (d) (decision D6): the cell word of every instruction decodes to it, and a cell word that decodes to an
instruction is its cell word: no bit is dropped, and none of the reserved words decodes. -/
def Obligations.CellWordsAndInstructionsAgree : Prop :=
  (∀ i : Instr, decodeCell (encode i) = .ok i) ∧
    ∀ (w : BitVec 25) (i : Instr), decodeCell w = .ok i → w = encode i

/-- R76, R161 (h) (decision D6): an integer decodes to an instruction exactly when it is that instruction's image; images
run from 0 to 139999. -/
def Obligations.ImagesAndInstructionsAgree : Prop :=
  (∀ (v : Int) (i : Instr), decodeImage v = .ok i ↔ v = image i) ∧ ∀ i : Instr, image i ≤ 139999

/-- R74, R75 (decision D6), the spec's own examples: a few cell words, bit by bit, and what they decode to. -/
def Obligations.SampleCellWordsDecode : Prop :=
  decodeCell 0b1000000001001100110011001#25 = .ok (.keyboard none none) ∧
  decodeCell 0b1000000010000001100000101#25 = .ok (.write (some (.lit 3)) (some (.lit 5))) ∧
  decodeCell 0b1000000100001000000010111#25 = .ok (.read (some .regE) (some .regF)) ∧
  decodeCell 0b1000001010001000100010101#25 = .ok (.add (some .regX) (some (.lit 15))) ∧
  decodeCell 0b1000010010000000100000011#25 = .ok (.alter (some (.lit 1)) (some (.lit 3))) ∧
  decodeCell 0b1000100110000001010011001#25 = .ok (.stepBy (some (.lit 2)) none) ∧
  decodeCell 0x0070001#25 = .reject .unwired ∧ decodeCell 0x1140000#25 = .reject .badOpcode

/-- R80, R81, R83: the canonical text of every instruction that has one parses back to it; the instructions without one are
those with tens absent and ones present (derived there). -/
def Obligations.CanonicalTextParsesBack : Prop :=
  (∀ (i : Instr) (line : List Char), canonicalText i = some line → parseLine line = .ok i) ∧
    ∀ i : Instr, canonicalText i = none ↔ i.tens = none ∧ i.ones ≠ none
end

