-- ==== Sys2Proof/Laws/Alu.lean ====
section
/-!
SUPPORT. What each ALU function of Machine/Alu.lean can answer, said once.
-/

namespace Sys2Proof.Machine

/-- A range check answers its value exactly when the check holds. -/
theorem checked_ok {α : Type} {c : Prop} [Decidable c] {x v : α} {e : Err} :
    (if c then Except.ok x else Except.error e) = Except.ok v ↔ c ∧ v = x := by
  by_cases h : c
  · rw [if_pos h, Except.ok.injEq]; exact ⟨fun e => ⟨h, e.symm⟩, fun e => e.2.symm⟩
  · rw [if_neg h]; exact ⟨fun e => (nomatch e), fun e => absurd e.1 h⟩

/-- A range check fails exactly when the check does not hold. -/
theorem checked_error {α : Type} {c : Prop} [Decidable c] {x : α} {e e' : Err} :
    (if c then Except.ok x else Except.error e) = (Except.error e' : Except Err α) ↔ ¬ c ∧ e' = e := by
  by_cases h : c
  · rw [if_pos h]; exact ⟨fun e => (nomatch e), fun e => absurd h e.1⟩
  · rw [if_neg h, Except.error.injEq]; exact ⟨fun e => ⟨h, e.symm⟩, fun e => e.2.symm⟩

theorem add12_ok {a b v : Int} : add12 a b = .ok v ↔ InWord12 (a + b) ∧ v = a + b := checked_ok

theorem add12_error {a b : Int} {e : Err} : add12 a b = .error e ↔ ¬ InWord12 (a + b) ∧ e = Err.overflow :=
  checked_error

theorem sub12_ok {a b v : Int} : sub12 a b = .ok v ↔ InWord12 (a - b) ∧ v = a - b := checked_ok

theorem sub12_error {a b : Int} {e : Err} : sub12 a b = .error e ↔ ¬ InWord12 (a - b) ∧ e = Err.overflow :=
  checked_error

theorem narrow11_ok {a v : Int} : narrow11 a = .ok v ↔ InWord11 a ∧ v = a := checked_ok

theorem narrow11_error {a : Int} {e : Err} : narrow11 a = .error e ↔ ¬ InWord11 a ∧ e = Err.overflow :=
  checked_error

/-- R144: the low-order part of the product of `a` and `b`. -/
def productLow (a b : Int) : Int := (a * b).sign * ((a * b).natAbs % splitBase : Nat)

/-- R144: the high-order part of the product of `a` and `b`. -/
def productHigh (a b : Int) : Int := (a * b).sign * ((a * b).natAbs / splitBase : Nat)

/-- R144: the magnitude of the high-order part fits eleven digits exactly below 10^23. -/
theorem highPart_fits (p : Int) : ((p.natAbs / splitBase : Nat) : Int) ≤ Config.p11 ↔ p.natAbs < 10 ^ 23 := by
  simp only [Config.p11, splitBase]; omega

theorem mulSplit_ok {a b : Int} {v : Int × Int} :
    mulSplit a b = .ok v ↔ (a * b).natAbs < 10 ^ 23 ∧ v = (productLow a b, productHigh a b) := by
  have h : mulSplit a b = if ((a * b).natAbs / splitBase : Nat) ≤ Config.p11 then
      .ok (productLow a b, productHigh a b) else .error Err.overflow := by
    unfold mulSplit
    by_cases hc : ((a * b).natAbs / splitBase : Nat) ≤ Config.p11
    · rw [if_pos hc]; exact if_neg (Int.not_lt.2 hc)
    · rw [if_neg hc]; exact if_pos (Int.not_le.1 hc)
  rw [h, checked_ok, highPart_fits]

theorem mulSplit_error {a b : Int} {e : Err} :
    mulSplit a b = .error e ↔ 10 ^ 23 ≤ (a * b).natAbs ∧ e = Err.overflow := by
  by_cases hc : (a * b).natAbs < 10 ^ 23
  · rw [mulSplit_ok.2 ⟨hc, rfl⟩]
    exact ⟨fun e => (nomatch e), fun e => absurd e.1 (Nat.not_le.2 hc)⟩
  · cases hm : mulSplit a b with
    | ok v => exact absurd (mulSplit_ok.1 hm).1 hc
    | error e' =>
      have he' : e' = Err.overflow := by
        unfold mulSplit at hm
        simp only at hm
        split at hm <;> cases hm
        rfl
      subst he'
      rw [Except.error.injEq]
      exact ⟨fun e => ⟨Nat.not_lt.1 hc, e.symm⟩, fun e => e.2.symm⟩

theorem divRem_ok {a b : Int} {v : Int × Int} :
    divRem a b = .ok v ↔ b ≠ 0 ∧ InWord11 (a - a.tdiv b * b) ∧ v = (a.tdiv b, a - a.tdiv b * b) := by
  unfold divRem
  by_cases hb : b = 0
  · rw [if_pos hb]; exact ⟨fun e => (nomatch e), fun e => absurd hb e.1⟩
  · rw [if_neg hb]
    exact checked_ok.trans ⟨fun e => ⟨hb, e⟩, fun e => e.2⟩

theorem divRem_error {a b : Int} {e : Err} :
    divRem a b = .error e ↔
      (b = 0 ∧ e = Err.divisionByZero) ∨ (b ≠ 0 ∧ ¬ InWord11 (a - a.tdiv b * b) ∧ e = Err.overflow) := by
  unfold divRem
  by_cases hb : b = 0
  · rw [if_pos hb, Except.error.injEq]
    exact ⟨fun e => .inl ⟨hb, e.symm⟩, fun e => e.elim (fun e => e.2.symm) fun e => absurd hb e.1⟩
  · rw [if_neg hb]
    exact checked_error.trans ⟨fun e => .inr ⟨hb, e⟩, fun e => e.elim (fun e => absurd e.1 hb) fun e => e.2⟩

end Sys2Proof.Machine
end

