-- ==== Sys2Proof/Laws/Decode.lean ====
section
/-!
SUPPORT. The code tables of rules R71 to R73 invert, the codes fit two digits, and the cell word as a number.
-/

namespace Sys2Proof

@[simp] theorem opcodeOfIndex_opcodeIndex (op : Opcode) : opcodeOfIndex (opcodeIndex op) = some op := by
  cases op <;> rfl

@[simp] theorem tensOfCode_tensCode (t : Option TensDigit) : tensOfCode (tensCode t) = some t := by
  cases t with
  | none => rfl
  | some d =>
    cases d with
    | lit d => simp [tensCode, tensOfCode]
    | regE => rfl
    | regX => rfl

@[simp] theorem onesOfCode_onesCode (o : Option OnesDigit) : onesOfCode (onesCode o) = some o := by
  cases o with
  | none => rfl
  | some d =>
    cases d with
    | lit n => simp [onesCode, onesOfCode]
    | regE => rfl
    | regF => rfl
    | regY => rfl
    | star => rfl
    | vee => rfl

@[simp] theorem Instr.ofParts_parts (i : Instr) : Instr.ofParts i.op i.tens i.ones = i := by
  cases i <;> rfl

@[simp] theorem Instr.ofParts_op (op : Opcode) (t : Option TensDigit) (o : Option OnesDigit) :
    (Instr.ofParts op t o).op = op := by cases op <;> rfl

@[simp] theorem Instr.ofParts_tens (op : Opcode) (t : Option TensDigit) (o : Option OnesDigit) :
    (Instr.ofParts op t o).tens = t := by cases op <;> rfl

@[simp] theorem Instr.ofParts_ones (op : Opcode) (t : Option TensDigit) (o : Option OnesDigit) :
    (Instr.ofParts op t o).ones = o := by cases op <;> rfl

theorem opcodeIndex_lt (op : Opcode) : opcodeIndex op < 14 := by cases op <;> decide

theorem tensCode_lt (t : Option TensDigit) : tensCode t < 100 := by
  cases t with
  | none => decide
  | some d =>
    cases d with
    | lit d => exact Nat.lt_trans d.isLt (by decide)
    | regE => decide
    | regX => decide

theorem onesCode_lt (o : Option OnesDigit) : onesCode o < 100 := by
  cases o with
  | none => decide
  | some d =>
    cases d with
    | lit n => exact Nat.lt_trans n.isLt (by decide)
    | regE => decide
    | regF => decide
    | regY => decide
    | star => decide
    | vee => decide

/-- The codes of an instruction decode to it. -/
theorem decodeCodes_codes (i : Instr) :
    decodeCodes (opcodeIndex i.op) (tensCode i.tens) (onesCode i.ones) = .ok i := by
  simp [decodeCodes]

/-- Everything `decodeCodes` can accept. -/
theorem decodeCodes_ok {a b c : Nat} {i : Instr} (h : decodeCodes a b c = .ok i) :
    opcodeOfIndex a = some i.op ∧ tensOfCode b = some i.tens ∧ onesOfCode c = some i.ones := by
  unfold decodeCodes at h
  cases ha : opcodeOfIndex a with
  | none => simp [ha] at h
  | some op =>
    cases hb : tensOfCode b with
    | none => simp [ha, hb] at h
    | some t =>
      cases hc : onesOfCode c with
      | none => simp [ha, hb, hc] at h
      | some o =>
        simp [ha, hb, hc] at h
        subst h
        simp

theorem bcdPair_toNat {c : Nat} (h : c < 100) : (bcdPair c).toNat = 16 * (c / 10) + c % 10 := by
  have h1 : c / 10 < 16 := by omega
  have h2 : c % 10 < 16 := by omega
  simp only [bcdPair, BitVec.toNat_append, BitVec.toNat_ofNat, Nat.reducePow, Nat.mod_eq_of_lt h1,
    Nat.mod_eq_of_lt h2]
  rw [Nat.shiftLeft_eq, ← Nat.shiftLeft_eq, ← Nat.shiftLeft_add_eq_or_of_lt h2, Nat.shiftLeft_eq]
  omega

/-- R75: the cell word as a number: the wired bit and the three binary-coded pairs. -/
theorem encode_toNat (i : Instr) :
    (encode i).toNat = 2 ^ 24 + 65536 * (bcdPair (opcodeIndex i.op)).toNat
      + 256 * (bcdPair (tensCode i.tens)).toNat + (bcdPair (onesCode i.ones)).toNat := by
  have h1 := (bcdPair (onesCode i.ones)).isLt
  have h2 := (bcdPair (tensCode i.tens)).isLt
  have h3 := (bcdPair (opcodeIndex i.op)).isLt
  have e1 : (bcdPair (tensCode i.tens) ++ bcdPair (onesCode i.ones)).toNat
      = 256 * (bcdPair (tensCode i.tens)).toNat + (bcdPair (onesCode i.ones)).toNat := by
    rw [BitVec.toNat_append, ← Nat.shiftLeft_add_eq_or_of_lt h1, Nat.shiftLeft_eq]; omega
  have b1 : (bcdPair (tensCode i.tens) ++ bcdPair (onesCode i.ones)).toNat < 2 ^ 16 := BitVec.isLt _
  have e2 : (bcdPair (opcodeIndex i.op) ++ (bcdPair (tensCode i.tens) ++ bcdPair (onesCode i.ones))).toNat
      = 65536 * (bcdPair (opcodeIndex i.op)).toNat
        + (bcdPair (tensCode i.tens) ++ bcdPair (onesCode i.ones)).toNat := by
    rw [BitVec.toNat_append, ← Nat.shiftLeft_add_eq_or_of_lt b1, Nat.shiftLeft_eq]; omega
  have b2 : (bcdPair (opcodeIndex i.op) ++ (bcdPair (tensCode i.tens) ++ bcdPair (onesCode i.ones))).toNat
      < 2 ^ 24 := BitVec.isLt _
  show (1#1 ++ (bcdPair (opcodeIndex i.op) ++ (bcdPair (tensCode i.tens) ++ bcdPair (onesCode i.ones)))).toNat = _
  rw [BitVec.toNat_append, ← Nat.shiftLeft_add_eq_or_of_lt b2, Nat.shiftLeft_eq, e2, e1]
  simp only [BitVec.toNat_ofNat]
  omega

/-- Two expansions in base 16 agree digit by digit. -/
theorem digit16 {a b d e : Nat} (h : 16 * a + d = 16 * b + e) (hd : d < 16) (he : e < 16) : a = b ∧ d = e := by
  omega

/-- A cell word is its wired bit and its six nibbles. -/
theorem cell_of_nibbles (w : BitVec 25) :
    w.toNat = 16 * (16 * (16 * (16 * (16 * (16 * (w.toNat / 16777216) + cellNibble w 5) + cellNibble w 4)
      + cellNibble w 3) + cellNibble w 2) + cellNibble w 1) + cellNibble w 0 := by
  have h1 : w.toNat / 16 / 16 = w.toNat / 256 := Nat.div_div_eq_div_mul _ _ _
  have h2 : w.toNat / 256 / 16 = w.toNat / 4096 := Nat.div_div_eq_div_mul _ _ _
  have h3 : w.toNat / 4096 / 16 = w.toNat / 65536 := Nat.div_div_eq_div_mul _ _ _
  have h4 : w.toNat / 65536 / 16 = w.toNat / 1048576 := Nat.div_div_eq_div_mul _ _ _
  have h5 : w.toNat / 1048576 / 16 = w.toNat / 16777216 := Nat.div_div_eq_div_mul _ _ _
  have e0 := Nat.div_add_mod w.toNat 16
  have e1 := Nat.div_add_mod (w.toNat / 16) 16
  have e2 := Nat.div_add_mod (w.toNat / 256) 16
  have e3 := Nat.div_add_mod (w.toNat / 4096) 16
  have e4 := Nat.div_add_mod (w.toNat / 65536) 16
  have e5 := Nat.div_add_mod (w.toNat / 1048576) 16
  rw [h1] at e1; rw [h2] at e2; rw [h3] at e3; rw [h4] at e4; rw [h5] at e5
  simp only [cellNibble, Nat.reducePow, Nat.div_one]
  generalize w.toNat / 16 = q1 at *
  generalize w.toNat / 256 = q2 at *
  generalize w.toNat / 4096 = q3 at *
  generalize w.toNat / 65536 = q4 at *
  generalize w.toNat / 1048576 = q5 at *
  generalize w.toNat / 16777216 = q6 at *
  clear h1 h2 h3 h4 h5
  omega

theorem cellNibble_lt (w : BitVec 25) (k : Nat) : cellNibble w k < 16 := Nat.mod_lt _ (by decide)

/-- R75: the wired bit and the nibbles of an instruction's cell word are the digits of its three codes. -/
theorem encode_nibbles (i : Instr) :
    (encode i).toNat / 16777216 = 1 ∧
      cellNibble (encode i) 5 = opcodeIndex i.op / 10 ∧ cellNibble (encode i) 4 = opcodeIndex i.op % 10 ∧
      cellNibble (encode i) 3 = tensCode i.tens / 10 ∧ cellNibble (encode i) 2 = tensCode i.tens % 10 ∧
      cellNibble (encode i) 1 = onesCode i.ones / 10 ∧ cellNibble (encode i) 0 = onesCode i.ones % 10 := by
  have hn := encode_toNat i
  have a1 := opcodeIndex_lt i.op
  have a2 := tensCode_lt i.tens
  have a3 := onesCode_lt i.ones
  rw [bcdPair_toNat (by omega), bcdPair_toNat a2, bcdPair_toNat a3] at hn
  have hh : (encode i).toNat = 16 * (16 * (16 * (16 * (16 * (16 * 1 + opcodeIndex i.op / 10) + opcodeIndex i.op % 10)
      + tensCode i.tens / 10) + tensCode i.tens % 10) + onesCode i.ones / 10) + onesCode i.ones % 10 := by
    rw [hn]; omega
  obtain ⟨h1, e0⟩ := digit16 ((cell_of_nibbles (encode i)).symm.trans hh) (cellNibble_lt _ _) (by omega)
  obtain ⟨h2, e1⟩ := digit16 h1 (cellNibble_lt _ _) (by omega)
  obtain ⟨h3, e2⟩ := digit16 h2 (cellNibble_lt _ _) (by omega)
  obtain ⟨h4, e3⟩ := digit16 h3 (cellNibble_lt _ _) (by omega)
  obtain ⟨h5, e4⟩ := digit16 h4 (cellNibble_lt _ _) (by omega)
  obtain ⟨h6, e5⟩ := digit16 h5 (cellNibble_lt _ _) (by omega)
  exact ⟨h6, e5, e4, e3, e2, e1, e0⟩

end Sys2Proof
end

