-- ==== Sys2Proof/Laws/State.lean ====
section
/-!
SUPPORT. One lemma per field per update of the state, true by rfl and tagged for simp, so that no proof unfolds a record
update; and the same for the derived reads `slot`, `word` and `ctl`.
-/

namespace Sys2Proof.Machine

@[simp] theorem raiseAlarm_status (s : State) (e : Err) : (raiseAlarm s e).status = .alarm e := rfl
@[simp] theorem raiseAlarm_slots (s : State) (e : Err) : (raiseAlarm s e).slots = s.slots := rfl
@[simp] theorem raiseAlarm_cp (s : State) (e : Err) : (raiseAlarm s e).cp = s.cp := rfl
@[simp] theorem raiseAlarm_mem (s : State) (e : Err) : (raiseAlarm s e).mem = s.mem := rfl
@[simp] theorem raiseAlarm_acc (s : State) (e : Err) : (raiseAlarm s e).acc = s.acc := rfl
@[simp] theorem raiseAlarm_sec (s : State) (e : Err) : (raiseAlarm s e).sec = s.sec := rfl
@[simp] theorem raiseAlarm_ctlE (s : State) (e : Err) : (raiseAlarm s e).ctlE = s.ctlE := rfl
@[simp] theorem raiseAlarm_ctlF (s : State) (e : Err) : (raiseAlarm s e).ctlF = s.ctlF := rfl
@[simp] theorem raiseAlarm_ctlX (s : State) (e : Err) : (raiseAlarm s e).ctlX = s.ctlX := rfl
@[simp] theorem raiseAlarm_ctlY (s : State) (e : Err) : (raiseAlarm s e).ctlY = s.ctlY := rfl
@[simp] theorem raiseAlarm_out (s : State) (e : Err) : (raiseAlarm s e).out = s.out := rfl
@[simp] theorem raiseAlarm_slot (s : State) (e : Err) (k : Nat) : (raiseAlarm s e).slot k = s.slot k := rfl
@[simp] theorem raiseAlarm_word (s : State) (e : Err) (t o : Nat) : (raiseAlarm s e).word t o = s.word t o := rfl
@[simp] theorem raiseAlarm_ctl (s : State) (e : Err) (r : CtlReg) : (raiseAlarm s e).ctl r = s.ctl r := by cases r <;> rfl

@[simp] theorem State.setStatus_status (s : State) (st : Status) : (s.setStatus st).status = st := rfl
@[simp] theorem State.setStatus_slots (s : State) (st : Status) : (s.setStatus st).slots = s.slots := rfl
@[simp] theorem State.setStatus_cp (s : State) (st : Status) : (s.setStatus st).cp = s.cp := rfl
@[simp] theorem State.setStatus_mem (s : State) (st : Status) : (s.setStatus st).mem = s.mem := rfl
@[simp] theorem State.setStatus_acc (s : State) (st : Status) : (s.setStatus st).acc = s.acc := rfl
@[simp] theorem State.setStatus_sec (s : State) (st : Status) : (s.setStatus st).sec = s.sec := rfl
@[simp] theorem State.setStatus_ctlE (s : State) (st : Status) : (s.setStatus st).ctlE = s.ctlE := rfl
@[simp] theorem State.setStatus_ctlF (s : State) (st : Status) : (s.setStatus st).ctlF = s.ctlF := rfl
@[simp] theorem State.setStatus_ctlX (s : State) (st : Status) : (s.setStatus st).ctlX = s.ctlX := rfl
@[simp] theorem State.setStatus_ctlY (s : State) (st : Status) : (s.setStatus st).ctlY = s.ctlY := rfl
@[simp] theorem State.setStatus_out (s : State) (st : Status) : (s.setStatus st).out = s.out := rfl
@[simp] theorem State.setStatus_slot (s : State) (st : Status) (k : Nat) : (s.setStatus st).slot k = s.slot k := rfl
@[simp] theorem State.setStatus_word (s : State) (st : Status) (t o : Nat) : (s.setStatus st).word t o = s.word t o := rfl
@[simp] theorem State.setStatus_ctl (s : State) (st : Status) (r : CtlReg) : (s.setStatus st).ctl r = s.ctl r := by cases r <;> rfl

@[simp] theorem State.setAcc_status (s : State) (v : Int) : (s.setAcc v).status = s.status := rfl
@[simp] theorem State.setAcc_slots (s : State) (v : Int) : (s.setAcc v).slots = s.slots := rfl
@[simp] theorem State.setAcc_cp (s : State) (v : Int) : (s.setAcc v).cp = s.cp := rfl
@[simp] theorem State.setAcc_mem (s : State) (v : Int) : (s.setAcc v).mem = s.mem := rfl
@[simp] theorem State.setAcc_acc (s : State) (v : Int) : (s.setAcc v).acc = v := rfl
@[simp] theorem State.setAcc_sec (s : State) (v : Int) : (s.setAcc v).sec = s.sec := rfl
@[simp] theorem State.setAcc_ctlE (s : State) (v : Int) : (s.setAcc v).ctlE = s.ctlE := rfl
@[simp] theorem State.setAcc_ctlF (s : State) (v : Int) : (s.setAcc v).ctlF = s.ctlF := rfl
@[simp] theorem State.setAcc_ctlX (s : State) (v : Int) : (s.setAcc v).ctlX = s.ctlX := rfl
@[simp] theorem State.setAcc_ctlY (s : State) (v : Int) : (s.setAcc v).ctlY = s.ctlY := rfl
@[simp] theorem State.setAcc_out (s : State) (v : Int) : (s.setAcc v).out = s.out := rfl
@[simp] theorem State.setAcc_slot (s : State) (v : Int) (k : Nat) : (s.setAcc v).slot k = s.slot k := rfl
@[simp] theorem State.setAcc_word (s : State) (v : Int) (t o : Nat) : (s.setAcc v).word t o = s.word t o := rfl
@[simp] theorem State.setAcc_ctl (s : State) (v : Int) (r : CtlReg) : (s.setAcc v).ctl r = s.ctl r := by cases r <;> rfl

@[simp] theorem State.setSec_status (s : State) (v : Int) : (s.setSec v).status = s.status := rfl
@[simp] theorem State.setSec_slots (s : State) (v : Int) : (s.setSec v).slots = s.slots := rfl
@[simp] theorem State.setSec_cp (s : State) (v : Int) : (s.setSec v).cp = s.cp := rfl
@[simp] theorem State.setSec_mem (s : State) (v : Int) : (s.setSec v).mem = s.mem := rfl
@[simp] theorem State.setSec_acc (s : State) (v : Int) : (s.setSec v).acc = s.acc := rfl
@[simp] theorem State.setSec_sec (s : State) (v : Int) : (s.setSec v).sec = v := rfl
@[simp] theorem State.setSec_ctlE (s : State) (v : Int) : (s.setSec v).ctlE = s.ctlE := rfl
@[simp] theorem State.setSec_ctlF (s : State) (v : Int) : (s.setSec v).ctlF = s.ctlF := rfl
@[simp] theorem State.setSec_ctlX (s : State) (v : Int) : (s.setSec v).ctlX = s.ctlX := rfl
@[simp] theorem State.setSec_ctlY (s : State) (v : Int) : (s.setSec v).ctlY = s.ctlY := rfl
@[simp] theorem State.setSec_out (s : State) (v : Int) : (s.setSec v).out = s.out := rfl
@[simp] theorem State.setSec_slot (s : State) (v : Int) (k : Nat) : (s.setSec v).slot k = s.slot k := rfl
@[simp] theorem State.setSec_word (s : State) (v : Int) (t o : Nat) : (s.setSec v).word t o = s.word t o := rfl
@[simp] theorem State.setSec_ctl (s : State) (v : Int) (r : CtlReg) : (s.setSec v).ctl r = s.ctl r := by cases r <;> rfl

@[simp] theorem State.setCp_status (s : State) (p : Nat) : (s.setCp p).status = s.status := rfl
@[simp] theorem State.setCp_slots (s : State) (p : Nat) : (s.setCp p).slots = s.slots := rfl
@[simp] theorem State.setCp_cp (s : State) (p : Nat) : (s.setCp p).cp = p := rfl
@[simp] theorem State.setCp_mem (s : State) (p : Nat) : (s.setCp p).mem = s.mem := rfl
@[simp] theorem State.setCp_acc (s : State) (p : Nat) : (s.setCp p).acc = s.acc := rfl
@[simp] theorem State.setCp_sec (s : State) (p : Nat) : (s.setCp p).sec = s.sec := rfl
@[simp] theorem State.setCp_ctlE (s : State) (p : Nat) : (s.setCp p).ctlE = s.ctlE := rfl
@[simp] theorem State.setCp_ctlF (s : State) (p : Nat) : (s.setCp p).ctlF = s.ctlF := rfl
@[simp] theorem State.setCp_ctlX (s : State) (p : Nat) : (s.setCp p).ctlX = s.ctlX := rfl
@[simp] theorem State.setCp_ctlY (s : State) (p : Nat) : (s.setCp p).ctlY = s.ctlY := rfl
@[simp] theorem State.setCp_out (s : State) (p : Nat) : (s.setCp p).out = s.out := rfl
@[simp] theorem State.setCp_slot (s : State) (p : Nat) (k : Nat) : (s.setCp p).slot k = s.slot k := rfl
@[simp] theorem State.setCp_word (s : State) (p : Nat) (t o : Nat) : (s.setCp p).word t o = s.word t o := rfl
@[simp] theorem State.setCp_ctl (s : State) (p : Nat) (r : CtlReg) : (s.setCp p).ctl r = s.ctl r := by cases r <;> rfl

@[simp] theorem State.setSlot_status (s : State) (p : Nat) (b : Option Pinboard) : (s.setSlot p b).status = s.status := rfl
@[simp] theorem State.setSlot_slots (s : State) (p : Nat) (b : Option Pinboard) : (s.setSlot p b).slots = slotPut s.slots p b := rfl
@[simp] theorem State.setSlot_cp (s : State) (p : Nat) (b : Option Pinboard) : (s.setSlot p b).cp = s.cp := rfl
@[simp] theorem State.setSlot_mem (s : State) (p : Nat) (b : Option Pinboard) : (s.setSlot p b).mem = s.mem := rfl
@[simp] theorem State.setSlot_acc (s : State) (p : Nat) (b : Option Pinboard) : (s.setSlot p b).acc = s.acc := rfl
@[simp] theorem State.setSlot_sec (s : State) (p : Nat) (b : Option Pinboard) : (s.setSlot p b).sec = s.sec := rfl
@[simp] theorem State.setSlot_ctlE (s : State) (p : Nat) (b : Option Pinboard) : (s.setSlot p b).ctlE = s.ctlE := rfl
@[simp] theorem State.setSlot_ctlF (s : State) (p : Nat) (b : Option Pinboard) : (s.setSlot p b).ctlF = s.ctlF := rfl
@[simp] theorem State.setSlot_ctlX (s : State) (p : Nat) (b : Option Pinboard) : (s.setSlot p b).ctlX = s.ctlX := rfl
@[simp] theorem State.setSlot_ctlY (s : State) (p : Nat) (b : Option Pinboard) : (s.setSlot p b).ctlY = s.ctlY := rfl
@[simp] theorem State.setSlot_out (s : State) (p : Nat) (b : Option Pinboard) : (s.setSlot p b).out = s.out := rfl
@[simp] theorem State.setSlot_word (s : State) (p : Nat) (b : Option Pinboard) (t o : Nat) : (s.setSlot p b).word t o = s.word t o := rfl
@[simp] theorem State.setSlot_ctl (s : State) (p : Nat) (b : Option Pinboard) (r : CtlReg) : (s.setSlot p b).ctl r = s.ctl r := by cases r <;> rfl

@[simp] theorem State.setCursor_status (s : State) (p q : Nat) : (s.setCursor p q).status = s.status := rfl
@[simp] theorem State.setCursor_slots (s : State) (p q : Nat) : (s.setCursor p q).slots = slotModify s.slots p fun b => b.withCur q := rfl
@[simp] theorem State.setCursor_cp (s : State) (p q : Nat) : (s.setCursor p q).cp = s.cp := rfl
@[simp] theorem State.setCursor_mem (s : State) (p q : Nat) : (s.setCursor p q).mem = s.mem := rfl
@[simp] theorem State.setCursor_acc (s : State) (p q : Nat) : (s.setCursor p q).acc = s.acc := rfl
@[simp] theorem State.setCursor_sec (s : State) (p q : Nat) : (s.setCursor p q).sec = s.sec := rfl
@[simp] theorem State.setCursor_ctlE (s : State) (p q : Nat) : (s.setCursor p q).ctlE = s.ctlE := rfl
@[simp] theorem State.setCursor_ctlF (s : State) (p q : Nat) : (s.setCursor p q).ctlF = s.ctlF := rfl
@[simp] theorem State.setCursor_ctlX (s : State) (p q : Nat) : (s.setCursor p q).ctlX = s.ctlX := rfl
@[simp] theorem State.setCursor_ctlY (s : State) (p q : Nat) : (s.setCursor p q).ctlY = s.ctlY := rfl
@[simp] theorem State.setCursor_out (s : State) (p q : Nat) : (s.setCursor p q).out = s.out := rfl
@[simp] theorem State.setCursor_word (s : State) (p q : Nat) (t o : Nat) : (s.setCursor p q).word t o = s.word t o := rfl
@[simp] theorem State.setCursor_ctl (s : State) (p q : Nat) (r : CtlReg) : (s.setCursor p q).ctl r = s.ctl r := by cases r <;> rfl

@[simp] theorem State.setCell_status (s : State) (p q : Nat) (i : Instr) : (s.setCell p q i).status = s.status := rfl
@[simp] theorem State.setCell_slots (s : State) (p q : Nat) (i : Instr) : (s.setCell p q i).slots = slotModify s.slots p fun b => b.withCell q i := rfl
@[simp] theorem State.setCell_cp (s : State) (p q : Nat) (i : Instr) : (s.setCell p q i).cp = s.cp := rfl
@[simp] theorem State.setCell_mem (s : State) (p q : Nat) (i : Instr) : (s.setCell p q i).mem = s.mem := rfl
@[simp] theorem State.setCell_acc (s : State) (p q : Nat) (i : Instr) : (s.setCell p q i).acc = s.acc := rfl
@[simp] theorem State.setCell_sec (s : State) (p q : Nat) (i : Instr) : (s.setCell p q i).sec = s.sec := rfl
@[simp] theorem State.setCell_ctlE (s : State) (p q : Nat) (i : Instr) : (s.setCell p q i).ctlE = s.ctlE := rfl
@[simp] theorem State.setCell_ctlF (s : State) (p q : Nat) (i : Instr) : (s.setCell p q i).ctlF = s.ctlF := rfl
@[simp] theorem State.setCell_ctlX (s : State) (p q : Nat) (i : Instr) : (s.setCell p q i).ctlX = s.ctlX := rfl
@[simp] theorem State.setCell_ctlY (s : State) (p q : Nat) (i : Instr) : (s.setCell p q i).ctlY = s.ctlY := rfl
@[simp] theorem State.setCell_out (s : State) (p q : Nat) (i : Instr) : (s.setCell p q i).out = s.out := rfl
@[simp] theorem State.setCell_word (s : State) (p q : Nat) (i : Instr) (t o : Nat) : (s.setCell p q i).word t o = s.word t o := rfl
@[simp] theorem State.setCell_ctl (s : State) (p q : Nat) (i : Instr) (r : CtlReg) : (s.setCell p q i).ctl r = s.ctl r := by cases r <;> rfl

@[simp] theorem State.emit_status (s : State) (ev : Event) : (s.emit ev).status = s.status := rfl
@[simp] theorem State.emit_slots (s : State) (ev : Event) : (s.emit ev).slots = s.slots := rfl
@[simp] theorem State.emit_cp (s : State) (ev : Event) : (s.emit ev).cp = s.cp := rfl
@[simp] theorem State.emit_mem (s : State) (ev : Event) : (s.emit ev).mem = s.mem := rfl
@[simp] theorem State.emit_acc (s : State) (ev : Event) : (s.emit ev).acc = s.acc := rfl
@[simp] theorem State.emit_sec (s : State) (ev : Event) : (s.emit ev).sec = s.sec := rfl
@[simp] theorem State.emit_ctlE (s : State) (ev : Event) : (s.emit ev).ctlE = s.ctlE := rfl
@[simp] theorem State.emit_ctlF (s : State) (ev : Event) : (s.emit ev).ctlF = s.ctlF := rfl
@[simp] theorem State.emit_ctlX (s : State) (ev : Event) : (s.emit ev).ctlX = s.ctlX := rfl
@[simp] theorem State.emit_ctlY (s : State) (ev : Event) : (s.emit ev).ctlY = s.ctlY := rfl
@[simp] theorem State.emit_out (s : State) (ev : Event) : (s.emit ev).out = s.out ++ [ev] := rfl
@[simp] theorem State.emit_slot (s : State) (ev : Event) (k : Nat) : (s.emit ev).slot k = s.slot k := rfl
@[simp] theorem State.emit_word (s : State) (ev : Event) (t o : Nat) : (s.emit ev).word t o = s.word t o := rfl
@[simp] theorem State.emit_ctl (s : State) (ev : Event) (r : CtlReg) : (s.emit ev).ctl r = s.ctl r := by cases r <;> rfl

@[simp] theorem State.setCtl_status (s : State) (r : CtlReg) (d : Digit) : (s.setCtl r d).status = s.status := by cases r <;> rfl
@[simp] theorem State.setCtl_slots (s : State) (r : CtlReg) (d : Digit) : (s.setCtl r d).slots = s.slots := by cases r <;> rfl
@[simp] theorem State.setCtl_cp (s : State) (r : CtlReg) (d : Digit) : (s.setCtl r d).cp = s.cp := by cases r <;> rfl
@[simp] theorem State.setCtl_mem (s : State) (r : CtlReg) (d : Digit) : (s.setCtl r d).mem = s.mem := by cases r <;> rfl
@[simp] theorem State.setCtl_acc (s : State) (r : CtlReg) (d : Digit) : (s.setCtl r d).acc = s.acc := by cases r <;> rfl
@[simp] theorem State.setCtl_sec (s : State) (r : CtlReg) (d : Digit) : (s.setCtl r d).sec = s.sec := by cases r <;> rfl
@[simp] theorem State.setCtl_out (s : State) (r : CtlReg) (d : Digit) : (s.setCtl r d).out = s.out := by cases r <;> rfl
@[simp] theorem State.setCtl_ctl (s : State) (r r' : CtlReg) (d : Digit) :
    (s.setCtl r d).ctl r' = if r' = r then d else s.ctl r' := by
  cases r <;> cases r' <;> rfl

end Sys2Proof.Machine
end

