-- ==== Sys2Proof/Laws/Ops.lean ====
section
/-!
SUPPORT. What each shared operation of Machine/Ops.lean can do, said once: slots, cells, `Last`, the data memory, the
accessor, the error combinator and the advance.
-/

namespace Sys2Proof.Machine

/-! ### Slots -/

@[simp] theorem slotAt_zero (sl : Slots) : slotAt sl 0 = none := rfl

/-- A loaded slot has a number 1 to 8. -/
theorem slotAt_some_bounds {sl : Slots} {p : Nat} {b : Pinboard} (h : slotAt sl p = some b) :
    1 ≤ p ∧ p ≤ Config.numSlots := by
  cases p with
  | zero => simp at h
  | succ k =>
    have hk : k < Config.numSlots := by
      by_contra hk
      simp [slotAt, Vector.getElem?_eq_none (Nat.le_of_not_lt hk)] at h
    omega

theorem slotAt_slotPut (sl : Slots) (p r : Nat) (b : Option Pinboard) :
    slotAt (slotPut sl p b) r = if r = p ∧ 1 ≤ p ∧ p ≤ Config.numSlots then b else slotAt sl r := by
  cases p with
  | zero => simp [slotPut]
  | succ k =>
    cases r with
    | zero => simp
    | succ j =>
      simp only [slotPut, slotAt, Vector.getElem?_setIfInBounds]
      by_cases hjk : k = j
      · subst hjk
        by_cases hk : k < Config.numSlots
        · simp [hk]
        · simp [hk]
      · have : ¬ j = k := fun h => hjk h.symm
        simp [hjk, this]

theorem slotAt_slotModify (sl : Slots) (p r : Nat) (f : Pinboard → Pinboard) :
    slotAt (slotModify sl p f) r = if r = p then (slotAt sl p).map f else slotAt sl r := by
  unfold slotModify
  cases h : slotAt sl p with
  | none =>
    by_cases hr : r = p
    · simp [hr, h]
    · simp [hr]
  | some b =>
    have hb := slotAt_some_bounds h
    simp [slotAt_slotPut, hb.1, hb.2]

theorem State.slot_bounds {s : State} {p : Nat} {b : Pinboard} (h : s.slot p = some b) :
    1 ≤ p ∧ p ≤ Config.numSlots := slotAt_some_bounds h

theorem State.setSlot_slot (s : State) (p r : Nat) (b : Option Pinboard) :
    (s.setSlot p b).slot r = if r = p ∧ 1 ≤ p ∧ p ≤ Config.numSlots then b else s.slot r :=
  slotAt_slotPut _ _ _ _

theorem State.setCursor_slot (s : State) (p q r : Nat) :
    (s.setCursor p q).slot r = if r = p then (s.slot p).map (fun b => b.withCur q) else s.slot r :=
  slotAt_slotModify _ _ _ _

theorem State.setCell_slot (s : State) (p q r : Nat) (i : Instr) :
    (s.setCell p q i).slot r = if r = p then (s.slot p).map (fun b => b.withCell q i) else s.slot r :=
  slotAt_slotModify _ _ _ _

/-- R41: every slot is empty at reset. -/
theorem State.reset_slot (p : Nat) : State.reset.slot p = none := by
  cases p with
  | zero => rfl
  | succ k =>
    simp only [State.slot, slotAt, State.reset, Vector.getElem?_replicate]
    split <;> rfl

/-! ### Cells and cursors -/

@[simp] theorem Pinboard.withCur_cur (b : Pinboard) (q : Nat) : (b.withCur q).cur = q := rfl
@[simp] theorem Pinboard.withCur_cell (b : Pinboard) (q r : Nat) : (b.withCur q).cell r = b.cell r := rfl
@[simp] theorem Pinboard.withCur_last (b : Pinboard) (q : Nat) : (b.withCur q).last? = b.last? := rfl
@[simp] theorem Pinboard.withCell_cur (b : Pinboard) (q : Nat) (i : Instr) : (b.withCell q i).cur = b.cur := rfl

theorem Pinboard.withCell_cell (b : Pinboard) (q r : Nat) (i : Instr) (hq : q < Config.capacity) :
    (b.withCell q i).cell r = if r = q then some i else b.cell r := by
  simp only [Pinboard.cell, Pinboard.withCell, Vector.getElem?_setIfInBounds]
  by_cases h : q = r
  · subst h; simp [hq]
  · have : ¬ r = q := fun e => h e.symm
    simp [h, this]

/-- A wired position is a position of the pinboard. -/
theorem Pinboard.cell_some_lt {b : Pinboard} {q : Nat} {i : Instr} (h : b.cell q = some i) : q < Config.capacity := by
  by_contra hq
  simp [Pinboard.cell, Vector.getElem?_eq_none (Nat.le_of_not_lt hq)] at h

/-! ### `Last` -/

theorem lastWired_none {l : List (Option Instr)} : lastWired l = none ↔ ∀ q : Nat, (l[q]?).join = none := by
  induction l with
  | nil => simp [lastWired]
  | cons c cs ih =>
    unfold lastWired
    cases h : lastWired cs with
    | none =>
      have hn := ih.1 h
      constructor
      · intro hc q
        cases q with
        | zero => cases c <;> simp_all
        | succ k => simpa using hn k
      · intro hq
        have := hq 0
        cases c <;> simp_all
    | some k =>
      constructor
      · intro hc; simp at hc
      · intro hq
        have : lastWired cs = none := ih.2 fun q => by simpa using hq (q + 1)
        simp [this] at h

theorem lastWired_some {l : List (Option Instr)} {k : Nat} (h : lastWired l = some k) :
    (∃ i, (l[k]?).join = some i) ∧ ∀ q, k < q → (l[q]?).join = none := by
  induction l generalizing k with
  | nil => simp [lastWired] at h
  | cons c cs ih =>
    unfold lastWired at h
    cases hc : lastWired cs with
    | none =>
      rw [hc] at h
      have hn := lastWired_none.1 hc
      cases c with
      | none => simp at h
      | some i =>
        simp at h
        subst h
        refine ⟨⟨i, by simp⟩, fun q hq => ?_⟩
        cases q with
        | zero => omega
        | succ j => simpa using hn j
    | some j =>
      rw [hc] at h
      simp at h
      subst h
      obtain ⟨⟨i, hi⟩, hr⟩ := ih hc
      refine ⟨⟨i, by simpa using hi⟩, fun q hq => ?_⟩
      cases q with
      | zero => omega
      | succ m => simpa using hr m (by omega)

/-- R34: `Last` is the greatest wired position. -/
theorem Pinboard.last?_spec {b : Pinboard} {l : Nat} (h : b.last? = some l) :
    (∃ i, b.cell l = some i) ∧ ∀ q, l < q → b.cell q = none := by
  have := lastWired_some h
  simpa [Pinboard.cell] using this

/-- R34: `Last` is undefined only for a pinboard with no wired cell. -/
theorem Pinboard.last?_none {b : Pinboard} (h : b.last? = none) (q : Nat) : b.cell q = none := by
  have := lastWired_none.1 h q
  simpa [Pinboard.cell] using this

/-- R34: a wired position above which nothing is wired is `Last`. -/
theorem Pinboard.last?_eq {b : Pinboard} {l : Nat} (hw : (b.cell l).isSome) (hn : ∀ q, l < q → b.cell q = none) :
    b.last? = some l := by
  cases h : b.last? with
  | none => simp [Pinboard.last?_none h l] at hw
  | some k =>
    obtain ⟨⟨i, hi⟩, hk⟩ := Pinboard.last?_spec h
    have h1 : ¬ k < l := fun hlt => by simp [hk l hlt] at hw
    have h2 : ¬ l < k := fun hlt => by simp [hn k hlt] at hi
    congr 1; omega

/-- A wired position lies at or below `Last`, so `Last` is defined there. -/
theorem Pinboard.last?_of_wired {b : Pinboard} {q : Nat} {i : Instr} (h : b.cell q = some i) :
    ∃ l, b.last? = some l ∧ q ≤ l ∧ l < Config.capacity := by
  cases hl : b.last? with
  | none => simp [Pinboard.last?_none hl q] at h
  | some l =>
    obtain ⟨⟨j, hj⟩, hn⟩ := Pinboard.last?_spec hl
    refine ⟨l, rfl, ?_, Pinboard.cell_some_lt hj⟩
    by_contra hlt
    simp [hn q (by omega)] at h

/-! ### The data memory -/

theorem Memory.read_write_other (m : Memory) (a c : Nat) (v : Int) (h : c ≠ a) :
    (m.write a v).read c = m.read c := by
  induction m with
  | nil => by_cases hv : v = Memory.unlisted <;> simp [Memory.write, Memory.read, hv, h]
  | cons e rest ih =>
    obtain ⟨k, w⟩ := e
    unfold Memory.write
    split
    · split
      · rfl
      · simp [Memory.read, h]
    · split
      · rename_i hk
        subst hk
        split <;> simp [Memory.read, h]
      · simp [Memory.read, ih]

/-- An address below every listed one reads as unlisted. -/
theorem Memory.read_of_below {m : Memory} {a : Nat} (h : ∀ c ∈ m, a < c.1) : m.read a = Memory.unlisted := by
  induction m with
  | nil => rfl
  | cons e rest ih =>
    obtain ⟨k, w⟩ := e
    have hk : a < k := h (k, w) (by simp)
    have : a ≠ k := by omega
    simp [Memory.read, this, ih fun c hc => h c (by simp [hc])]

theorem Memory.read_write_same {m : Memory} (hm : m.wf) (a : Nat) (v : Int) : (m.write a v).read a = v := by
  obtain ⟨hp, -⟩ := hm
  induction m with
  | nil => by_cases hv : v = Memory.unlisted <;> simp [Memory.write, Memory.read, hv]
  | cons e rest ih =>
    obtain ⟨k, w⟩ := e
    obtain ⟨hlt, hrest⟩ := List.pairwise_cons.1 hp
    unfold Memory.write
    split
    · rename_i hak
      split
      · rename_i hv
        rw [hv]
        exact Memory.read_of_below fun c hc => by
          rcases List.mem_cons.1 hc with rfl | hc
          · exact hak
          · exact Nat.lt_trans hak (hlt c hc)
      · simp [Memory.read]
    · split
      · rename_i hk
        subst hk
        split
        · rename_i hv
          rw [hv]
          exact Memory.read_of_below fun c hc => hlt c hc
        · simp [Memory.read]
      · rename_i hk
        simp [Memory.read, hk, ih hrest]

/-- A write lists nothing but what was listed and the word written. -/
theorem Memory.mem_write {m : Memory} {a : Nat} {v : Int} {c : Nat × Int} (h : c ∈ m.write a v) :
    c ∈ m ∨ (c = (a, v) ∧ v ≠ Memory.unlisted) := by
  induction m with
  | nil =>
    by_cases hv : v = Memory.unlisted
    · simp [Memory.write, hv] at h
    · simp [Memory.write, hv] at h; exact .inr ⟨h, hv⟩
  | cons e rest ih =>
    obtain ⟨k, w⟩ := e
    unfold Memory.write at h
    split at h
    · split at h
      · exact .inl h
      · rename_i hv
        rcases List.mem_cons.1 h with rfl | h
        · exact .inr ⟨rfl, hv⟩
        · exact .inl h
    · split at h
      · split at h
        · exact .inl (List.mem_cons_of_mem _ h)
        · rename_i hv
          rcases List.mem_cons.1 h with rfl | h
          · exact .inr ⟨rfl, hv⟩
          · exact .inl (List.mem_cons_of_mem _ h)
      · rcases List.mem_cons.1 h with rfl | h
        · exact .inl (by simp)
        · exact (ih h).imp (List.mem_cons_of_mem _) id

theorem Memory.pairwise_write {m : Memory} (hp : m.Pairwise (fun c d => c.1 < d.1)) (a : Nat) (v : Int) :
    (m.write a v).Pairwise (fun c d => c.1 < d.1) := by
  induction m with
  | nil => by_cases hv : v = Memory.unlisted <;> simp [Memory.write, hv]
  | cons e rest ih =>
    obtain ⟨k, w⟩ := e
    obtain ⟨hlt, hrest⟩ := List.pairwise_cons.1 hp
    unfold Memory.write
    split
    · rename_i hak
      split
      · exact hp
      · refine List.pairwise_cons.2 ⟨fun c hc => ?_, hp⟩
        rcases List.mem_cons.1 hc with rfl | hc
        · exact hak
        · exact Nat.lt_trans hak (hlt c hc)
    · split
      · rename_i hk
        subst hk
        split
        · exact hrest
        · exact List.pairwise_cons.2 ⟨hlt, hrest⟩
      · rename_i hna hk
        refine List.pairwise_cons.2 ⟨fun c hc => ?_, ih hrest⟩
        rcases Memory.mem_write hc with hc | ⟨rfl, -⟩
        · exact hlt c hc
        · show k < a
          omega

/-- Every write inside the grid keeps the canonical form. -/
theorem Memory.wf_write {m : Memory} (hm : m.wf) {a : Nat} (ha : a < Config.memTens * Config.memOnes) (v : Int) :
    (m.write a v).wf := by
  refine ⟨Memory.pairwise_write hm.1 a v, fun c hc => ?_⟩
  rcases Memory.mem_write hc with hc | ⟨rfl, hv⟩
  · exact hm.2 c hc
  · exact ⟨ha, hv⟩

/-- The reset memory has the canonical form. -/
theorem Memory.wf_reset : State.reset.mem.wf := by decide

theorem Memory.read_inWord12 {m : Memory} (hm : ∀ c ∈ m, InWord12 c.2) (a : Nat) : InWord12 (m.read a) := by
  induction m with
  | nil => exact (by decide : InWord12 Memory.unlisted)
  | cons e rest ih =>
    obtain ⟨k, w⟩ := e
    unfold Memory.read
    split
    · exact hm (k, w) (by simp)
    · exact ih fun c hc => hm c (by simp [hc])

theorem dataAddr_lt {t o : Nat} (ht : t ≤ 9) (ho : o ≤ 9) : dataAddr t o < Config.memTens * Config.memOnes := by
  simp only [dataAddr, Config.memTens, Config.memOnes]; omega

/-- Two addresses of the grid with the same linear name are the same address. -/
theorem dataAddr_inj {t o t' o' : Nat} (ho : o ≤ 9) (ho' : o' ≤ 9) (h : dataAddr t o = dataAddr t' o') :
    t = t' ∧ o = o' := by
  simp only [dataAddr] at h; omega

/-! ### The accessor, the errors and the advance -/

@[simp] theorem orAlarm_ok {α : Type} (s : State) (a : α) (k : α → Result) : orAlarm s (.ok a) k = k a := rfl
@[simp] theorem orAlarm_error {α : Type} (s : State) (e : Err) (k : α → Result) :
    orAlarm s (.error e) k = .next (raiseAlarm s e) := rfl

theorem memRead_grid {t o : Nat} (s : State) (ht : t ≤ 9) (ho : o ≤ 9) : memRead s t o = .ok (s.word t o) := by
  simp [memRead, Nat.not_lt.2 ht, Nat.not_lt.2 ho]

theorem memRead_outside {t o : Nat} (s : State) (h : 9 < t ∨ 9 < o) : memRead s t o = .error Err.cell := by
  simp [memRead, h]

theorem memWrite_grid {t o : Nat} (s : State) (v : Int) (ht : t ≤ 9) (ho : o ≤ 9) :
    memWrite s t o v = .ok { s with mem := s.mem.write (dataAddr t o) v } := by
  simp [memWrite, Nat.not_lt.2 ht, Nat.not_lt.2 ho]

theorem memWrite_outside {t o : Nat} (s : State) (v : Int) (h : 9 < t ∨ 9 < o) :
    memWrite s t o v = .error Err.cell := by
  simp [memWrite, h]

/-- R107: what the advance does below `Last`. -/
theorem advance_below {s : State} {b : Pinboard} {l : Nat} (hb : s.slot s.cp = some b) (hl : b.last? = some l)
    (h : b.cur < l) : advance s = .next (s.setCursor s.cp (b.cur + 1)) := by
  simp [advance, hb, hl, Nat.not_le.2 h]

/-- R107: what the advance does at `Last`. -/
theorem advance_at_last {s : State} {b : Pinboard} {l : Nat} (hb : s.slot s.cp = some b) (hl : b.last? = some l)
    (h : l ≤ b.cur) : advance s = .next (s.setStatus .halt) := by
  simp [advance, hb, hl, h]

/-- Everything the advance can do when it answers a next state. -/
theorem advance_cases {s u : State} (h : advance s = .next u) :
    ∃ b l, s.slot s.cp = some b ∧ b.last? = some l ∧
      ((l ≤ b.cur ∧ u = s.setStatus .halt) ∨ (b.cur < l ∧ u = s.setCursor s.cp (b.cur + 1))) := by
  unfold advance at h
  cases hb : s.slot s.cp with
  | none => simp [hb] at h
  | some b =>
    cases hl : b.last? with
    | none => simp [hb, hl] at h
    | some l =>
      refine ⟨b, l, rfl, hl, ?_⟩
      by_cases hc : l ≤ b.cur
      · simp [hb, hl, hc] at h; exact .inl ⟨hc, h.symm⟩
      · simp [hb, hl, hc] at h; exact .inr ⟨Nat.lt_of_not_le hc, h.symm⟩

/-- The advance never refuses. -/
theorem advance_not_refused (s : State) (r : Refusal) : advance s ≠ .refused r := by
  intro h
  unfold advance at h
  split at h
  · cases h
  · split at h
    · cases h
    · split at h <;> cases h

end Sys2Proof.Machine
end

