-- ==== Sys2Proof/Laws/Operands.lean ====
section
/-!
SUPPORT. What the operand forms of Machine/Operands.lean can do, said once: the substitution, the refusal, each shape, and
the target resolution.
-/

namespace Sys2Proof.Machine

/-- R103, R104: a ones digit other than `*` and `V` resolves, and its presence does not change. -/
theorem resolveOnes_ok (s : State) {o : Option OnesDigit} (h1 : o ≠ some .star) (h2 : o ≠ some .vee) :
    ∃ on, resolveOnes s o = .ok on ∧ on.isSome = o.isSome ∧ ∀ n, on = some n → n ≤ 15 := by
  cases o with
  | none => exact ⟨none, rfl, rfl, by simp⟩
  | some d =>
    cases d with
    | lit n => exact ⟨some n.val, rfl, rfl, fun m hm => by cases hm; have := n.isLt; omega⟩
    | regE => exact ⟨some s.ctlE.val, rfl, rfl, fun m hm => by cases hm; have := s.ctlE.isLt; omega⟩
    | regF => exact ⟨some s.ctlF.val, rfl, rfl, fun m hm => by cases hm; have := s.ctlF.isLt; omega⟩
    | regY => exact ⟨some s.ctlY.val, rfl, rfl, fun m hm => by cases hm; have := s.ctlY.isLt; omega⟩
    | star => exact absurd rfl h1
    | vee => exact absurd rfl h2

/-- R103: the refusal, exactly for `*` and `V`, always under the one name. -/
theorem resolveOnes_error (s : State) (o : Option OnesDigit) (r : Refusal) :
    resolveOnes s o = .error r ↔ (o = some .star ∨ o = some .vee) ∧ r = .unsupported := by
  cases o with
  | none => simp [resolveOnes]
  | some d => cases d <;> simp [resolveOnes, eq_comm]

/-- R104: resolution keeps the presence of the tens operand, and its value is a digit 0 to 9. -/
theorem resolveTens_isSome (s : State) (t : Option TensDigit) : (resolveTens s t).isSome = t.isSome := by
  cases t with
  | none => rfl
  | some d => cases d <;> rfl

theorem resolveTens_le {s : State} {t : Option TensDigit} {n : Nat} (h : resolveTens s t = some n) : n ≤ 9 := by
  cases t with
  | none => simp [resolveTens] at h
  | some d =>
    cases d with
    | lit d => simp [resolveTens] at h; have := d.isLt; omega
    | regE => simp [resolveTens] at h; have := s.ctlE.isLt; omega
    | regX => simp [resolveTens] at h; have := s.ctlX.isLt; omega

/-- R103: `*` and `V` are refused whatever the rest of the instruction is. -/
theorem withOperands_refused (t : Option TensDigit) {o : Option OnesDigit} (s : State)
    (k : Option Nat → Option Nat → Result) (h : o = some .star ∨ o = some .vee) :
    withOperands t o s k = .refused .unsupported := by
  rcases h with rfl | rfl <;> rfl

theorem withOperands_ok (t : Option TensDigit) {o : Option OnesDigit} {s : State} {on : Option Nat}
    (k : Option Nat → Option Nat → Result) (h : resolveOnes s o = .ok on) :
    withOperands t o s k = k (resolveTens s t) on := by
  simp [withOperands, h]

/-- Everything the operand stage can do when the whole answers a next state. -/
theorem withOperands_next {t : Option TensDigit} {o : Option OnesDigit} {s u : State}
    {k : Option Nat → Option Nat → Result} (h : withOperands t o s k = .next u) :
    ∃ on, resolveOnes s o = .ok on ∧ k (resolveTens s t) on = .next u := by
  unfold withOperands at h
  cases hr : resolveOnes s o with
  | error r => simp [hr] at h
  | ok on => exact ⟨on, rfl, by simpa [hr] using h⟩

theorem noOperands_absent (s : State) (k : Result) : noOperands none none s k = k := rfl

theorem noOperands_next {t : Option TensDigit} {o : Option OnesDigit} {s u : State} {k : Result}
    (h : noOperands t o s k = .next u) :
    (t = none ∧ o = none ∧ k = .next u) ∨ u = raiseAlarm s Err.uncovered := by
  obtain ⟨on, ho, hk⟩ := withOperands_next h
  cases t with
  | some d =>
    right
    cases d <;> cases on <;> simp [resolveTens, uncovered] at hk <;> exact hk.symm
  | none =>
    cases o with
    | none => cases ho; exact .inl ⟨rfl, rfl, hk⟩
    | some d =>
      right
      cases d <;> cases ho <;> simp [resolveTens, uncovered] at hk <;> exact hk.symm

theorem bothOperands_present {t : Option TensDigit} {o : Option OnesDigit} {s : State} {a n : Nat}
    (k : Nat → Nat → Result) (ht : resolveTens s t = some a) (ho : resolveOnes s o = .ok (some n)) :
    bothOperands t o s k = k a n := by
  simp [bothOperands, withOperands, ht, ho]

theorem bothOperands_next {t : Option TensDigit} {o : Option OnesDigit} {s u : State} {k : Nat → Nat → Result}
    (h : bothOperands t o s k = .next u) :
    (∃ a n, resolveTens s t = some a ∧ resolveOnes s o = .ok (some n) ∧ k a n = .next u)
      ∨ u = raiseAlarm s Err.uncovered := by
  obtain ⟨on, ho, hk⟩ := withOperands_next h
  cases ht : resolveTens s t with
  | none => right; simp [ht, uncovered] at hk; exact hk.symm
  | some a =>
    cases on with
    | none => right; simp [ht, uncovered] at hk; exact hk.symm
    | some n => left; exact ⟨a, n, rfl, ho, by simpa [ht] using hk⟩

theorem someOperand_present {t : Option TensDigit} {o : Option OnesDigit} {s : State} {on : Option Nat}
    (k : Option Nat → Option Nat → Result) (ho : resolveOnes s o = .ok on)
    (hp : (resolveTens s t).isSome ∨ on.isSome) : someOperand t o s k = k (resolveTens s t) on := by
  cases ht : resolveTens s t <;> cases on <;> simp_all [someOperand, withOperands]

theorem someOperand_next {t : Option TensDigit} {o : Option OnesDigit} {s u : State}
    {k : Option Nat → Option Nat → Result} (h : someOperand t o s k = .next u) :
    (∃ on, resolveOnes s o = .ok on ∧ ((resolveTens s t).isSome ∨ on.isSome) ∧ k (resolveTens s t) on = .next u)
      ∨ u = raiseAlarm s Err.uncovered := by
  obtain ⟨on, ho, hk⟩ := withOperands_next h
  cases ht : resolveTens s t with
  | none =>
    cases on with
    | none => right; simp [ht, uncovered] at hk; exact hk.symm
    | some n => left; exact ⟨some n, ho, by simp, by simpa [ht] using hk⟩
  | some a => left; exact ⟨on, ho, by simp, by cases on <;> simpa [ht] using hk⟩

theorem tensOperand_present {t : Option TensDigit} {s : State} {n : Nat} (k : Nat → Result)
    (ht : resolveTens s t = some n) : tensOperand t none s k = k n := by
  simp [tensOperand, withOperands, resolveOnes, ht]

theorem tensOperand_next {t : Option TensDigit} {o : Option OnesDigit} {s u : State} {k : Nat → Result}
    (h : tensOperand t o s k = .next u) :
    (∃ n, resolveTens s t = some n ∧ o = none ∧ k n = .next u) ∨ u = raiseAlarm s Err.uncovered := by
  obtain ⟨on, ho, hk⟩ := withOperands_next h
  cases ht : resolveTens s t with
  | none => right; simp [ht, uncovered] at hk; exact hk.symm
  | some a =>
    cases on with
    | some n => right; simp [ht, uncovered] at hk; exact hk.symm
    | none =>
      left
      refine ⟨a, rfl, ?_, by simpa [ht] using hk⟩
      cases o with
      | none => rfl
      | some d => cases d <;> cases ho

/-- R110: what the default target resolution answers. -/
theorem resolveTarget_some {s : State} {tn on : Option Nat} {p q : Nat} (h : resolveTarget s tn on = some (p, q)) :
    ∃ b, s.slot p = some b ∧ p = tn.getD s.cp ∧ q = on.getD b.cur ∧ q < Config.capacity := by
  unfold resolveTarget at h
  cases hb : s.slot (tn.getD s.cp) with
  | none => simp [hb] at h
  | some b =>
    by_cases hq : Config.capacity ≤ on.getD b.cur
    · simp [hb, hq] at h
    · simp [hb, hq] at h
      obtain ⟨rfl, rfl⟩ := h
      exact ⟨b, hb, rfl, rfl, Nat.lt_of_not_le hq⟩

end Sys2Proof.Machine
end

