-- ==== Sys2Proof/Laws/Exec.lean ====
section
/-!
SUPPORT. Everything each meaning can do when it answers a next state: the alarm of a check it failed, with the state
otherwise as it was, or its own effect, in terms of the shared operations.
-/

namespace Sys2Proof.Machine

/-- Close an error of a checked operation: the next state is the alarm. -/
theorem orAlarm_next {α : Type} {s u : State} {r : Except Err α} {k : α → Result} (h : orAlarm s r k = .next u) :
    (∃ e, r = .error e ∧ u = raiseAlarm s e) ∨ ∃ a, r = .ok a ∧ k a = .next u := by
  cases r with
  | error e => simp at h; exact .inl ⟨e, rfl, h.symm⟩
  | ok a => exact .inr ⟨a, rfl, by simpa using h⟩

theorem memRead_cases (s : State) {t o : Nat} (ht : t ≤ 9) :
    (9 < o ∧ memRead s t o = .error Err.cell) ∨ (o ≤ 9 ∧ memRead s t o = .ok (s.word t o)) := by
  by_cases ho : o ≤ 9
  · exact .inr ⟨ho, memRead_grid s ht ho⟩
  · exact .inl ⟨by omega, memRead_outside s (by omega)⟩

theorem execKeyboard_next {t : Option TensDigit} {o : Option OnesDigit} {s u : State}
    (h : execKeyboard t o s = .next u) :
    u = raiseAlarm s Err.uncovered ∨ (t = none ∧ o = none ∧ u = s.setStatus .keyboard) := by
  rcases noOperands_next h with ⟨ht, ho, hk⟩ | hu
  · exact .inr ⟨ht, ho, by simpa using hk.symm⟩
  · exact .inl hu

theorem execPrint_next {t : Option TensDigit} {o : Option OnesDigit} {s u : State} (h : execPrint t o s = .next u) :
    u = raiseAlarm s Err.uncovered ∨
      (t = none ∧ o = none ∧ advance (s.emit (.print s.acc)) = .next u) := by
  rcases noOperands_next h with ⟨ht, ho, hk⟩ | hu
  · exact .inr ⟨ht, ho, hk⟩
  · exact .inl hu

theorem execAccToSec_next {t : Option TensDigit} {o : Option OnesDigit} {s u : State}
    (h : execAccToSec t o s = .next u) :
    u = raiseAlarm s Err.uncovered ∨ (¬ InWord11 s.acc ∧ u = raiseAlarm s Err.overflow) ∨
      (t = none ∧ o = none ∧ InWord11 s.acc ∧ advance (s.setSec s.acc) = .next u) := by
  rcases noOperands_next h with ⟨ht, ho, hk⟩ | hu
  · rcases orAlarm_next hk with ⟨e, he, hu⟩ | ⟨v, hv, hk⟩
    · obtain ⟨hr, rfl⟩ := narrow11_error.1 he
      exact .inr (.inl ⟨hr, hu⟩)
    · obtain ⟨hr, rfl⟩ := narrow11_ok.1 hv
      exact .inr (.inr ⟨ht, ho, hr, hk⟩)
  · exact .inl hu

theorem execWrite_next {t : Option TensDigit} {o : Option OnesDigit} {s u : State} (h : execWrite t o s = .next u) :
    (∃ e, (e = Err.uncovered ∨ e = Err.cell) ∧ u = raiseAlarm s e) ∨
      ∃ a n, resolveTens s t = some a ∧ resolveOnes s o = .ok (some n) ∧ a ≤ 9 ∧ n ≤ 9 ∧
        advance { s with mem := s.mem.write (dataAddr a n) s.acc } = .next u := by
  rcases bothOperands_next h with ⟨a, n, ht, ho, hk⟩ | hu
  · have ha := resolveTens_le ht
    by_cases hn : n ≤ 9
    · rw [memWrite_grid s s.acc ha hn] at hk
      exact .inr ⟨a, n, ht, ho, ha, hn, hk⟩
    · rw [memWrite_outside s s.acc (by omega)] at hk
      simp at hk
      exact .inl ⟨Err.cell, .inr rfl, hk.symm⟩
  · exact .inl ⟨_, .inl rfl, hu⟩

/-- What the instructions that read one word share: the alarms of the shape and of the address, or the rest of the
instruction on the word read. -/
theorem reading_next {t : Option TensDigit} {o : Option OnesDigit} {s u : State} {k : Int → Result}
    (h : (bothOperands t o s fun a b => orAlarm s (memRead s a b) k) = .next u) :
    (∃ e, (e = Err.uncovered ∨ e = Err.cell) ∧ u = raiseAlarm s e) ∨
      ∃ a n, resolveTens s t = some a ∧ resolveOnes s o = .ok (some n) ∧ a ≤ 9 ∧ n ≤ 9 ∧
        k (s.word a n) = .next u := by
  rcases bothOperands_next h with ⟨a, n, ht, ho, hk⟩ | hu
  · have ha := resolveTens_le ht
    rcases memRead_cases s (o := n) ha with ⟨_, hm⟩ | ⟨hn, hm⟩
    · rw [hm] at hk
      simp at hk
      exact .inl ⟨Err.cell, .inr rfl, hk.symm⟩
    · rw [hm] at hk
      exact .inr ⟨a, n, ht, ho, ha, hn, hk⟩
  · exact .inl ⟨_, .inl rfl, hu⟩

theorem execRead_next {t : Option TensDigit} {o : Option OnesDigit} {s u : State} (h : execRead t o s = .next u) :
    (∃ e, (e = Err.uncovered ∨ e = Err.cell) ∧ u = raiseAlarm s e) ∨
      ∃ a n, resolveTens s t = some a ∧ resolveOnes s o = .ok (some n) ∧ a ≤ 9 ∧ n ≤ 9 ∧
        advance (s.setAcc (s.word a n)) = .next u := reading_next h

theorem execAdd_next {t : Option TensDigit} {o : Option OnesDigit} {s u : State} (h : execAdd t o s = .next u) :
    (∃ e, (e = Err.uncovered ∨ e = Err.cell ∨ e = Err.overflow) ∧ u = raiseAlarm s e) ∨
      ∃ a n, resolveTens s t = some a ∧ resolveOnes s o = .ok (some n) ∧ a ≤ 9 ∧ n ≤ 9 ∧
        InWord12 (s.acc + s.word a n) ∧ advance (s.setAcc (s.acc + s.word a n)) = .next u := by
  rcases reading_next h with ⟨e, he, hu⟩ | ⟨a, n, ht, ho, ha, hn, hk⟩
  · exact .inl ⟨e, he.imp_right .inl, hu⟩
  · rcases orAlarm_next hk with ⟨e, he, hu⟩ | ⟨v, hv, hk⟩
    · exact .inl ⟨e, .inr (.inr (add12_error.1 he).2), hu⟩
    · obtain ⟨hr, rfl⟩ := add12_ok.1 hv
      exact .inr ⟨a, n, ht, ho, ha, hn, hr, hk⟩

theorem execSub_next {t : Option TensDigit} {o : Option OnesDigit} {s u : State} (h : execSub t o s = .next u) :
    (∃ e, (e = Err.uncovered ∨ e = Err.cell ∨ e = Err.overflow) ∧ u = raiseAlarm s e) ∨
      ∃ a n, resolveTens s t = some a ∧ resolveOnes s o = .ok (some n) ∧ a ≤ 9 ∧ n ≤ 9 ∧
        InWord12 (s.acc - s.word a n) ∧ advance (s.setAcc (s.acc - s.word a n)) = .next u := by
  rcases reading_next h with ⟨e, he, hu⟩ | ⟨a, n, ht, ho, ha, hn, hk⟩
  · exact .inl ⟨e, he.imp_right .inl, hu⟩
  · rcases orAlarm_next hk with ⟨e, he, hu⟩ | ⟨v, hv, hk⟩
    · exact .inl ⟨e, .inr (.inr (sub12_error.1 he).2), hu⟩
    · obtain ⟨hr, rfl⟩ := sub12_ok.1 hv
      exact .inr ⟨a, n, ht, ho, ha, hn, hr, hk⟩

theorem execMul_next {t : Option TensDigit} {o : Option OnesDigit} {s u : State} (h : execMul t o s = .next u) :
    (∃ e, (e = Err.uncovered ∨ e = Err.cell ∨ e = Err.overflow) ∧ u = raiseAlarm s e) ∨
      ∃ a n lo hi, resolveTens s t = some a ∧ resolveOnes s o = .ok (some n) ∧ a ≤ 9 ∧ n ≤ 9 ∧
        mulSplit s.acc (s.word a n) = .ok (lo, hi) ∧ advance ((s.setAcc lo).setSec hi) = .next u := by
  rcases reading_next h with ⟨e, he, hu⟩ | ⟨a, n, ht, ho, ha, hn, hk⟩
  · exact .inl ⟨e, he.imp_right .inl, hu⟩
  · rcases orAlarm_next hk with ⟨e, he, hu⟩ | ⟨⟨lo, hi⟩, hv, hk⟩
    · exact .inl ⟨e, .inr (.inr (mulSplit_error.1 he).2), hu⟩
    · exact .inr ⟨a, n, lo, hi, ht, ho, ha, hn, hv, hk⟩

theorem execDiv_next {t : Option TensDigit} {o : Option OnesDigit} {s u : State} (h : execDiv t o s = .next u) :
    (∃ e, (e = Err.uncovered ∨ e = Err.cell ∨ e = Err.divisionByZero ∨ e = Err.overflow) ∧ u = raiseAlarm s e) ∨
      ∃ a n q r, resolveTens s t = some a ∧ resolveOnes s o = .ok (some n) ∧ a ≤ 9 ∧ n ≤ 9 ∧
        divRem s.acc (s.word a n) = .ok (q, r) ∧ advance ((s.setAcc q).setSec r) = .next u := by
  rcases reading_next h with ⟨e, he, hu⟩ | ⟨a, n, ht, ho, ha, hn, hk⟩
  · exact .inl ⟨e, he.imp_right .inl, hu⟩
  · rcases orAlarm_next hk with ⟨e, he, hu⟩ | ⟨⟨q, r⟩, hv, hk⟩
    · rcases divRem_error.1 he with ⟨_, h2⟩ | ⟨_, _, h2⟩
      · exact .inl ⟨e, .inr (.inr (.inl h2)), hu⟩
      · exact .inl ⟨e, .inr (.inr (.inr h2)), hu⟩
    · exact .inr ⟨a, n, q, r, ht, ho, ha, hn, hv, hk⟩

theorem alterUnder_next {target : TargetPolicy} {t : Option TensDigit} {o : Option OnesDigit} {s u : State}
    (h : alterUnder target t o s = .next u) :
    (∃ e, (e = Err.uncovered ∨ e = Err.target ∨ e = Err.badImage) ∧ u = raiseAlarm s e) ∨
      ∃ on p q n, resolveOnes s o = .ok on ∧ target s (resolveTens s t) on = some (p, q) ∧
        decodeImage s.acc = .ok n ∧ advance (s.setCell p q n) = .next u := by
  rcases someOperand_next h with ⟨on, ho, _, hk⟩ | hu
  · cases ht : target s (resolveTens s t) on with
    | none => simp [ht] at hk; exact .inl ⟨_, .inr (.inl rfl), hk.symm⟩
    | some pq =>
      obtain ⟨p, q⟩ := pq
      cases hd : decodeImage s.acc with
      | reject w => simp [ht, hd] at hk; exact .inl ⟨_, .inr (.inr rfl), hk.symm⟩
      | ok n => simp only [ht, hd] at hk; exact .inr ⟨on, p, q, n, ho, ht, rfl, hk⟩
  · exact .inl ⟨_, .inl rfl, hu⟩

theorem transferTo_next {target : TargetPolicy} {s u : State} {tn on : Option Nat}
    (h : transferTo target s tn on = .next u) :
    u = raiseAlarm s Err.target ∨ ∃ p q, target s tn on = some (p, q) ∧ u = (s.setCp p).setCursor p q := by
  unfold transferTo at h
  cases ht : target s tn on with
  | none => simp [ht] at h; exact .inl h.symm
  | some pq => obtain ⟨p, q⟩ := pq; simp [ht] at h; exact .inr ⟨p, q, rfl, h.symm⟩

theorem transferUnder_next {target : TargetPolicy} {t : Option TensDigit} {o : Option OnesDigit} {s u : State}
    (h : transferUnder target t o s = .next u) :
    (∃ e, (e = Err.uncovered ∨ e = Err.target) ∧ u = raiseAlarm s e) ∨
      ∃ on p q, resolveOnes s o = .ok on ∧ target s (resolveTens s t) on = some (p, q) ∧
        u = (s.setCp p).setCursor p q := by
  rcases someOperand_next h with ⟨on, ho, _, hk⟩ | hu
  · rcases transferTo_next hk with hu | ⟨p, q, ht, hu⟩
    · exact .inl ⟨_, .inr rfl, hu⟩
    · exact .inr ⟨on, p, q, ho, ht, hu⟩
  · exact .inl ⟨_, .inl rfl, hu⟩

theorem condTransferUnder_next {target : TargetPolicy} {cond : CondPolicy} {t : Option TensDigit}
    {o : Option OnesDigit} {s u : State} (h : condTransferUnder target cond t o s = .next u) :
    (∃ e, (e = Err.uncovered ∨ e = Err.target) ∧ u = raiseAlarm s e) ∨
      (cond s = true ∧ ∃ on p q, resolveOnes s o = .ok on ∧ target s (resolveTens s t) on = some (p, q) ∧
        u = (s.setCp p).setCursor p q) ∨
      (cond s = false ∧ advance s = .next u) := by
  rcases someOperand_next h with ⟨on, ho, _, hk⟩ | hu
  · cases hc : cond s with
    | false => simp [hc] at hk; exact .inr (.inr ⟨rfl, hk⟩)
    | true =>
      simp [hc] at hk
      rcases transferTo_next hk with hu | ⟨p, q, ht, hu⟩
      · exact .inl ⟨_, .inr rfl, hu⟩
      · exact .inr (.inl ⟨rfl, on, p, q, ho, ht, hu⟩)
  · exact .inl ⟨_, .inl rfl, hu⟩

theorem execHome_next {t : Option TensDigit} {o : Option OnesDigit} {s u : State} (h : execHome t o s = .next u) :
    u = raiseAlarm s Err.uncovered ∨
      (t = none ∧ o = none ∧ ∃ b, s.slot s.cp = some b ∧ u = s.setCursor s.cp 0) := by
  rcases noOperands_next h with ⟨ht, ho, hk⟩ | hu
  · cases hb : s.slot s.cp with
    | none => simp [hb] at hk
    | some b => simp [hb] at hk; exact .inr ⟨ht, ho, b, rfl, hk.symm⟩
  · exact .inl hu

theorem execStepBy_next {t : Option TensDigit} {o : Option OnesDigit} {s u : State} (h : execStepBy t o s = .next u) :
    u = raiseAlarm s Err.uncovered ∨
      ∃ n b l, resolveTens s t = some n ∧ o = none ∧ s.slot s.cp = some b ∧ b.last? = some l ∧
        ((l < b.cur + n ∧ u = s.setStatus .halt) ∨ (b.cur + n ≤ l ∧ u = s.setCursor s.cp (b.cur + n))) := by
  rcases tensOperand_next h with ⟨n, ht, ho, hk⟩ | hu
  · right
    cases hb : s.slot s.cp with
    | none => simp [hb] at hk
    | some b =>
      cases hl : b.last? with
      | none => simp [hb, hl] at hk
      | some l =>
        refine ⟨n, b, l, ht, ho, rfl, hl, ?_⟩
        by_cases hc : l < b.cur + n
        · simp [hb, hl, hc] at hk; exact .inl ⟨hc, hk.symm⟩
        · simp [hb, hl, hc] at hk; exact .inr ⟨Nat.le_of_not_lt hc, hk.symm⟩
  · exact .inl hu

end Sys2Proof.Machine
end

