-- ==== Sys2Proof/Laws/Outcome.lean ====
section
/-!
SUPPORT. Everything any instruction can do when it answers a next state, said once for all fourteen and for any policies: an
alarm, an effect followed by the advance, or one of the four moves that do not advance.
-/

namespace Sys2Proof.Machine

/-- R111, 7: what an instruction that advances has done before it advances: from the state `s` to the state `m`. -/
inductive Effect (pol : Policies) (i : Instr) (s : State) : State → Prop where
  | print (h : i.op = .print) : Effect pol i s (s.emit (.print s.acc))
  | copy (h : i.op = .accToSec) (hr : InWord11 s.acc) : Effect pol i s (s.setSec s.acc)
  | store (h : i.op = .write) {a n : Nat} (ha : a ≤ 9) (hn : n ≤ 9) (ht : resolveTens s i.tens = some a)
      (ho : resolveOnes s i.ones = .ok (some n)) : Effect pol i s { s with mem := s.mem.write (dataAddr a n) s.acc }
  | load (h : i.op ∈ [Opcode.read, .add, .sub]) {v : Int} (hv : InWord12 v ∨ ∃ a n, v = s.word a n) :
      Effect pol i s (s.setAcc v)
  | split (h : i.op ∈ [Opcode.mul, .div]) {v w : Int} (hv : InWord12 s.acc → InWord12 v) (hw : InWord11 w) :
      Effect pol i s ((s.setAcc v).setSec w)
  | rewire (h : i.op = .alter) {tn on : Option Nat} {p q : Nat} {n : Instr} (ht : pol.target s tn on = some (p, q))
      (hd : decodeImage s.acc = .ok n) : Effect pol i s (s.setCell p q n)
  | nothing (h : i.op = .condTransfer) : Effect pol i s s

/-- Everything an instruction can do when it answers a next state. -/
inductive Answers (pol : Policies) (i : Instr) (s : State) : State → Prop where
  | alarm {e : Err} (he : e.listed = true) : Answers pol i s (raiseAlarm s e)
  | waits (h : i = .keyboard none none) : Answers pol i s (s.setStatus .keyboard)
  | advanced {m u : State} (he : Effect pol i s m) (ha : advance m = .next u) : Answers pol i s u
  | transferred (h : i.op = .transfer ∨ i.op = .condTransfer) {tn on : Option Nat} {p q : Nat}
      (ht : pol.target s tn on = some (p, q)) : Answers pol i s ((s.setCp p).setCursor p q)
  | homed (h : i.op = .home) {b : Pinboard} (hb : s.slot s.cp = some b) : Answers pol i s (s.setCursor s.cp 0)
  | steppedPast (h : i.op = .stepBy) {n l : Nat} {b : Pinboard} (ht : resolveTens s i.tens = some n)
      (hb : s.slot s.cp = some b) (hl : b.last? = some l) (hc : l < b.cur + n) :
      Answers pol i s (s.setStatus .halt)
  | stepped (h : i.op = .stepBy) {n l : Nat} {b : Pinboard} (ht : resolveTens s i.tens = some n)
      (hb : s.slot s.cp = some b) (hl : b.last? = some l) (hc : b.cur + n ≤ l) :
      Answers pol i s (s.setCursor s.cp (b.cur + n))

/-- R144: the low-order part of a product is a word, and the high-order part of one below 10^23 is a secondary word. -/
theorem product_parts (a b : Int) (h : (a * b).natAbs < 10 ^ 23) :
    InWord12 (productLow a b) ∧ InWord11 (productHigh a b) := by
  unfold productLow productHigh splitBase InWord12 InWord11 Config.p12 Config.p11
  generalize a * b = p at *
  rcases lt_trichotomy p 0 with hp | hp | hp
  · rw [Int.sign_eq_neg_one_of_neg hp]; omega
  · subst hp; simp
  · rw [Int.sign_eq_one_of_pos hp]; omega

/-- R145: a quotient is no larger in magnitude than the dividend. -/
theorem quotient_inWord12 {a : Int} (b : Int) (h : InWord12 a) : InWord12 (a.tdiv b) := by
  have hq : (a.tdiv b).natAbs ≤ a.natAbs := by rw [Int.natAbs_tdiv]; exact Nat.div_le_self _ _
  unfold InWord12 at *
  omega

/-- R106, R111: everything an instruction can do. -/
theorem execUnder_answers {pol : Policies} {i : Instr} {s u : State} (h : execUnder pol i s = .next u) :
    Answers pol i s u := by
  cases i with
  | keyboard t o =>
    rcases execKeyboard_next h with rfl | ⟨rfl, rfl, rfl⟩
    · exact .alarm rfl
    · exact .waits rfl
  | print t o =>
    rcases execPrint_next h with rfl | ⟨rfl, rfl, ha⟩
    · exact .alarm rfl
    · exact .advanced (.print rfl) ha
  | accToSec t o =>
    rcases execAccToSec_next h with rfl | ⟨_, rfl⟩ | ⟨rfl, rfl, hr, ha⟩
    · exact .alarm rfl
    · exact .alarm rfl
    · exact .advanced (.copy rfl hr) ha
  | write t o =>
    rcases execWrite_next h with ⟨e, rfl | rfl, rfl⟩ | ⟨a, n, ht, ho, ha, hn, hk⟩
    · exact .alarm rfl
    · exact .alarm rfl
    · exact .advanced (.store rfl ha hn ht ho) hk
  | read t o =>
    rcases execRead_next h with ⟨e, rfl | rfl, rfl⟩ | ⟨a, n, ht, ho, ha, hn, hk⟩
    · exact .alarm rfl
    · exact .alarm rfl
    · exact .advanced (.load (by simp [Instr.op]) (.inr ⟨a, n, rfl⟩)) hk
  | add t o =>
    rcases execAdd_next h with ⟨e, rfl | rfl | rfl, rfl⟩ | ⟨a, n, ht, ho, ha, hn, hr, hk⟩
    · exact .alarm rfl
    · exact .alarm rfl
    · exact .alarm rfl
    · exact .advanced (.load (by simp [Instr.op]) (.inl hr)) hk
  | sub t o =>
    rcases execSub_next h with ⟨e, rfl | rfl | rfl, rfl⟩ | ⟨a, n, ht, ho, ha, hn, hr, hk⟩
    · exact .alarm rfl
    · exact .alarm rfl
    · exact .alarm rfl
    · exact .advanced (.load (by simp [Instr.op]) (.inl hr)) hk
  | mul t o =>
    rcases execMul_next h with ⟨e, rfl | rfl | rfl, rfl⟩ | ⟨a, n, lo, hi, ht, ho, ha, hn, hm, hk⟩
    · exact .alarm rfl
    · exact .alarm rfl
    · exact .alarm rfl
    · obtain ⟨hp, hv⟩ := mulSplit_ok.1 hm
      obtain ⟨rfl, rfl⟩ := Prod.mk.inj hv
      obtain ⟨h1, h2⟩ := product_parts _ _ hp
      exact .advanced (.split (by simp [Instr.op]) (fun _ => h1) h2) hk
  | div t o =>
    rcases execDiv_next h with ⟨e, rfl | rfl | rfl | rfl, rfl⟩ | ⟨a, n, q, r, ht, ho, ha, hn, hd, hk⟩
    · exact .alarm rfl
    · exact .alarm rfl
    · exact .alarm rfl
    · exact .alarm rfl
    · obtain ⟨_, hr, hv⟩ := divRem_ok.1 hd
      obtain ⟨rfl, rfl⟩ := Prod.mk.inj hv
      exact .advanced (.split (by simp [Instr.op]) (quotient_inWord12 _) hr) hk
  | alter t o =>
    rcases alterUnder_next h with ⟨e, rfl | rfl | rfl, rfl⟩ | ⟨on, p, q, n, ho, ht, hd, hk⟩
    · exact .alarm rfl
    · exact .alarm rfl
    · exact .alarm rfl
    · exact .advanced (.rewire rfl ht hd) hk
  | transfer t o =>
    rcases transferUnder_next h with ⟨e, rfl | rfl, rfl⟩ | ⟨on, p, q, ho, ht, rfl⟩
    · exact .alarm rfl
    · exact .alarm rfl
    · exact .transferred (.inl rfl) ht
  | condTransfer t o =>
    rcases condTransferUnder_next h with ⟨e, rfl | rfl, rfl⟩ | ⟨_, on, p, q, ho, ht, rfl⟩ | ⟨_, ha⟩
    · exact .alarm rfl
    · exact .alarm rfl
    · exact .transferred (.inr rfl) ht
    · exact .advanced (.nothing rfl) ha
  | home t o =>
    rcases execHome_next h with rfl | ⟨rfl, rfl, b, hb, rfl⟩
    · exact .alarm rfl
    · exact .homed rfl hb
  | stepBy t o =>
    rcases execStepBy_next h with rfl | ⟨n, b, l, ht, rfl, hb, hl, ⟨hc, rfl⟩ | ⟨hc, rfl⟩⟩
    · exact .alarm rfl
    · exact .steppedPast rfl ht hb hl hc
    · exact .stepped rfl ht hb hl hc

/-- R106: the machine's own dispatch is the one under the default policies, instruction by instruction. -/
theorem exec_answers {i : Instr} {s u : State} (h : exec i s = .next u) : Answers defaultPolicies i s u :=
  execUnder_answers (by cases i <;> exact h)

/-- No effect before the advance touches `CP`. -/
theorem Effect.cp {pol : Policies} {i : Instr} {s m : State} (h : Effect pol i s m) : m.cp = s.cp := by
  cases h <;> rfl

/-- No effect before the advance touches the status. -/
theorem Effect.status {pol : Policies} {i : Instr} {s m : State} (h : Effect pol i s m) : m.status = s.status := by
  cases h <;> rfl

/-- R23: no effect touches a control register. -/
theorem Effect.ctl {pol : Policies} {i : Instr} {s m : State} (h : Effect pol i s m) (r : CtlReg) :
    m.ctl r = s.ctl r := by
  cases h <;> cases r <;> rfl

/-- R107: what advances is none of `K`, `U`, `H` and `S`. -/
theorem Effect.op {pol : Policies} {i : Instr} {s m : State} (h : Effect pol i s m) :
    i.op ≠ .keyboard ∧ i.op ≠ .transfer ∧ i.op ≠ .home ∧ i.op ≠ .stepBy := by
  cases h with
  | load hi _ => rw [List.mem_cons, List.mem_cons, List.mem_singleton] at hi; rcases hi with hi | hi | hi <;> simp [hi]
  | split hi _ _ => rw [List.mem_cons, List.mem_singleton] at hi; rcases hi with hi | hi <;> simp [hi]
  | print hi => simp [hi]
  | copy hi _ => simp [hi]
  | store hi _ _ _ _ => simp [hi]
  | rewire hi _ _ => simp [hi]
  | nothing hi => simp [hi]

end Sys2Proof.Machine
end

