-- ==== Sys2Proof/Laws/PerInstr.lean ====
section
/-!
SUPPORT. What is said of every instruction as syntax, one lemma per constructor. Family OpcodeSelect: rules R75 and R85 of
`30_encoding.md`: bits 24 to 16 of the cell word alone select the opcode: they are the wired bit and the two binary-coded
digits of the opcode index, whatever the operands are.
-/

namespace Sys2Proof.Laws.OpcodeSelect

/-- R75, R85: the top nine bits of the cell word. -/
def Statement (i : Instr) : Prop :=
  (encode i).toNat / 65536 = 256 + 16 * (opcodeIndex i.op / 10) + opcodeIndex i.op % 10

theorem of_encode (i : Instr) : Statement i := by
  have h0 := bcdPair_toNat (Nat.lt_trans (opcodeIndex_lt i.op) (by decide))
  have h1 := (bcdPair (tensCode i.tens)).isLt
  have h2 := (bcdPair (onesCode i.ones)).isLt
  unfold Statement
  rw [encode_toNat, h0]
  omega

theorem keyboard (t : Option TensDigit) (o : Option OnesDigit) : Statement (.keyboard t o) := of_encode _
theorem write (t : Option TensDigit) (o : Option OnesDigit) : Statement (.write t o) := of_encode _
theorem read (t : Option TensDigit) (o : Option OnesDigit) : Statement (.read t o) := of_encode _
theorem accToSec (t : Option TensDigit) (o : Option OnesDigit) : Statement (.accToSec t o) := of_encode _
theorem print (t : Option TensDigit) (o : Option OnesDigit) : Statement (.print t o) := of_encode _
theorem add (t : Option TensDigit) (o : Option OnesDigit) : Statement (.add t o) := of_encode _
theorem sub (t : Option TensDigit) (o : Option OnesDigit) : Statement (.sub t o) := of_encode _
theorem mul (t : Option TensDigit) (o : Option OnesDigit) : Statement (.mul t o) := of_encode _
theorem div (t : Option TensDigit) (o : Option OnesDigit) : Statement (.div t o) := of_encode _
theorem alter (t : Option TensDigit) (o : Option OnesDigit) : Statement (.alter t o) := of_encode _
theorem transfer (t : Option TensDigit) (o : Option OnesDigit) : Statement (.transfer t o) := of_encode _
theorem condTransfer (t : Option TensDigit) (o : Option OnesDigit) : Statement (.condTransfer t o) := of_encode _
theorem home (t : Option TensDigit) (o : Option OnesDigit) : Statement (.home t o) := of_encode _
theorem stepBy (t : Option TensDigit) (o : Option OnesDigit) : Statement (.stepBy t o) := of_encode _

end Sys2Proof.Laws.OpcodeSelect
end

