-- ==== Sys2Proof/Laws/Step.lean ====
section
/-!
SUPPORT. What the fetch and the step can do, said once.
-/

namespace Sys2Proof.Machine

/-- Everything a successful fetch says: the current slot is loaded, the cell at its cursor is wired, so `Last` is
defined and the cursor is at or below it. -/
theorem fetch_ok {s : State} {i : Instr} (h : fetch s = .ok i) :
    ∃ b l, s.slot s.cp = some b ∧ b.cell b.cur = some i ∧ b.last? = some l ∧ b.cur ≤ l ∧ l < Config.capacity := by
  unfold fetch at h
  cases hb : s.slot s.cp with
  | none => simp [hb] at h
  | some b =>
    cases hc : b.cell b.cur with
    | none => simp [hb, hc] at h
    | some j =>
      simp [hb, hc] at h
      subst h
      obtain ⟨l, hl, hle, hlt⟩ := Pinboard.last?_of_wired hc
      exact ⟨b, l, rfl, hc, hl, hle, hlt⟩

theorem fetch_empty {s : State} (h : s.slot s.cp = none) : fetch s = .error Err.missingPinboard := by
  simp [fetch, h]

theorem fetch_unwired {s : State} {b : Pinboard} (h : s.slot s.cp = some b) (hc : b.cell b.cur = none) :
    fetch s = .error Err.unwired := by
  simp [fetch, h, hc]

theorem fetch_wired {s : State} {b : Pinboard} {i : Instr} (h : s.slot s.cp = some b)
    (hc : b.cell b.cur = some i) : fetch s = .ok i := by
  simp [fetch, h, hc]

/-- The fetch has two errors. -/
theorem fetch_error {s : State} {e : Err} (h : fetch s = .error e) : e = Err.missingPinboard ∨ e = Err.unwired := by
  unfold fetch at h
  split at h
  · cases h; exact .inl rfl
  · split at h
    · cases h; exact .inr rfl
    · cases h

/-- R100: outside `Continue` nothing happens, whatever would run. -/
theorem stepUsing_idle {run : Instr → State → Result} {s : State} (h : s.status ≠ .cont) :
    stepUsing run s = .next s := by
  unfold stepUsing
  cases hs : s.status <;> simp_all

theorem stepUsing_run {run : Instr → State → Result} {s : State} {i : Instr} (h : s.status = .cont)
    (hf : fetch s = .ok i) : stepUsing run s = run i s := by
  simp [stepUsing, h, hf]

theorem stepUsing_fetch_error {run : Instr → State → Result} {s : State} {e : Err} (h : s.status = .cont)
    (hf : fetch s = .error e) : stepUsing run s = .next (raiseAlarm s e) := by
  simp [stepUsing, h, hf]

/-- Everything a step can do: nothing, an error of the fetch, or the fetched instruction. -/
theorem stepUsing_cases (run : Instr → State → Result) (s : State) :
    (s.status ≠ .cont ∧ stepUsing run s = .next s)
      ∨ (s.status = .cont ∧ ∃ e, fetch s = .error e ∧ stepUsing run s = .next (raiseAlarm s e))
      ∨ (s.status = .cont ∧ ∃ i, fetch s = .ok i ∧ stepUsing run s = run i s) := by
  by_cases h : s.status = .cont
  · right
    cases hf : fetch s with
    | error e => exact .inl ⟨h, e, rfl, stepUsing_fetch_error h hf⟩
    | ok i => exact .inr ⟨h, i, rfl, stepUsing_run h hf⟩
  · exact .inl ⟨h, stepUsing_idle h⟩

/-! ### The report of a step -/

@[simp] theorem stepReport_cont : stepReport .cont = .ok := rfl
@[simp] theorem stepReport_keyboard : stepReport .keyboard = .ok := rfl
@[simp] theorem stepReport_halt : stepReport .halt = .ok := rfl
@[simp] theorem stepReport_alarm (e : Err) : stepReport (.alarm e) = .err e := rfl

/-- R109: in `Continue` the `Step` transaction answers the step's next state, with that state's report. -/
theorem stepTx_next {s u : State} (h : s.status = .cont) (hu : step s = .next u) :
    stepTx s = (u, stepReport u.status) := by
  simp [stepTx, h, hu]

/-! ### Placing a word -/

@[simp] theorem Pinboard.blank_cur : Pinboard.blank.cur = 0 := rfl

@[simp] theorem Pinboard.blank_cell (q : Nat) : Pinboard.blank.cell q = none := by
  unfold Pinboard.cell Pinboard.blank
  by_cases hq : q < Config.capacity <;> simp [hq]

/-- The slot and the cursor a fetch meets after `makeReady`: the pinboard that was there with its cursor brought into
range, or one with no cell wired. -/
def readyBoard (s : State) (p : Nat) : Pinboard :=
  match s.slot p with
  | none => Pinboard.blank
  | some b => if b.cur < Config.capacity then b else b.withCur 0

theorem readyBoard_cur_lt (s : State) (p : Nat) : (readyBoard s p).cur < Config.capacity := by
  unfold readyBoard
  split
  · exact (by decide : (0 : Nat) < Config.capacity)
  · split
    · assumption
    · exact (by decide : (0 : Nat) < Config.capacity)

/-- Everything `makeReady` does. -/
theorem makeReady_spec (s : State) :
    (makeReady s).status = .cont ∧
      (makeReady s).cp = (if 1 ≤ s.cp ∧ s.cp ≤ Config.numSlots then s.cp else 1) ∧
      (∀ r, (makeReady s).slot r =
        if r = (makeReady s).cp then some (readyBoard s (makeReady s).cp) else s.slot r) ∧
      (makeReady s).acc = s.acc ∧ (makeReady s).sec = s.sec ∧ (makeReady s).mem = s.mem ∧
      (∀ c, (makeReady s).ctl c = s.ctl c) ∧ (makeReady s).out = s.out := by
  obtain ⟨t, ht, hst, hcp, hrange, hslot, hregs⟩ :
      ∃ t, t = (if 1 ≤ (s.setStatus .cont).cp ∧ (s.setStatus .cont).cp ≤ Config.numSlots then s.setStatus .cont
          else (s.setStatus .cont).setCp 1) ∧
        t.status = .cont ∧ t.cp = (if 1 ≤ s.cp ∧ s.cp ≤ Config.numSlots then s.cp else 1) ∧
        (1 ≤ t.cp ∧ t.cp ≤ Config.numSlots) ∧ (∀ r, t.slot r = s.slot r) ∧
        t.acc = s.acc ∧ t.sec = s.sec ∧ t.mem = s.mem ∧ (∀ c, t.ctl c = s.ctl c) ∧ t.out = s.out := by
    refine ⟨_, rfl, ?_⟩
    by_cases h : 1 ≤ s.cp ∧ s.cp ≤ Config.numSlots
    · rw [if_pos h, if_pos (show 1 ≤ (s.setStatus .cont).cp ∧ (s.setStatus .cont).cp ≤ Config.numSlots from h)]
      exact ⟨rfl, rfl, h, fun _ => rfl, rfl, rfl, rfl, fun c => by cases c <;> rfl, rfl⟩
    · rw [if_neg h, if_neg (show ¬(1 ≤ (s.setStatus .cont).cp ∧ (s.setStatus .cont).cp ≤ Config.numSlots) from h)]
      exact ⟨rfl, rfl, (by decide : 1 ≤ 1 ∧ 1 ≤ Config.numSlots), fun _ => rfl, rfl, rfl, rfl, fun c => by cases c <;> rfl, rfl⟩
  unfold makeReady
  simp only [← ht]
  split
  · rename_i hb
    refine ⟨hst, hcp, fun r => ?_, hregs⟩
    rw [State.setSlot_slot, hslot r]
    have hboard : readyBoard s t.cp = Pinboard.blank := by simp [readyBoard, ← hslot, hb]
    simp [hrange.1, hrange.2, hboard]
  · rename_i b hb
    split
    · rename_i hc
      refine ⟨hst, hcp, fun r => ?_, hregs⟩
      have hboard : readyBoard s t.cp = b := by simp [readyBoard, ← hslot, hb, hc]
      rw [hboard, ← hslot r]
      split
      · rename_i h; rw [h, hb]
      · rfl
    · rename_i hc
      refine ⟨hst, hcp, fun r => ?_, hregs.1, hregs.2.1, hregs.2.2.1, fun c => ?_, hregs.2.2.2.2⟩
      · have hboard : readyBoard s t.cp = b.withCur 0 := by simp [readyBoard, ← hslot, hb, hc]
        rw [State.setCursor_slot, hslot r, State.setCursor_cp, hboard, hb]
        rfl
      · rw [State.setCursor_ctl, hregs.2.2.2.1 c]

theorem placeAtPc_slot (s : State) (c : Option Instr) (r : Nat) :
    (placeAtPc s c).slot r =
      if r = s.cp then (s.slot s.cp).map (fun b => { b with cells := b.cells.setIfInBounds b.cur c })
      else s.slot r := slotAt_slotModify _ _ _ _

end Sys2Proof.Machine
end

