-- ==== Sys2Proof/Tests/Slice0.lean ====
section
/-!
SUPPORT. The model's own tests: ill-formed terms the well-formedness check refuses, cell words written out bit by bit from
rule R75 of `30_encoding.md`, steps whose results stand in `95_test_vectors.md` (each test names its vector), and for every
statement with hypotheses the witnesses that meet them, at the boundary values of its clauses.
-/

namespace Sys2Proof.Tests

open Sys2Proof.Machine Sys2Proof.Claims

/-! ### Well-formedness: each shape of R77 refuses what it does not cover -/

theorem test_keyboard_with_operands_ill_formed : (Instr.keyboard (some (.lit 3)) (some (.lit 5))).wellFormed = false := by
  decide
theorem test_print_with_tens_ill_formed : (Instr.print (some (.lit 1)) none).wellFormed = false := by decide
theorem test_copy_with_ones_ill_formed : (Instr.accToSec none (some (.lit 2))).wellFormed = false := by decide
theorem test_home_with_operands_ill_formed : (Instr.home (some (.lit 0)) (some (.lit 0))).wellFormed = false := by decide
theorem test_write_without_ones_ill_formed : (Instr.write (some (.lit 0)) none).wellFormed = false := by decide
theorem test_add_without_tens_ill_formed : (Instr.add none (some (.lit 5))).wellFormed = false := by decide
theorem test_transfer_without_operand_ill_formed : (Instr.transfer none none).wellFormed = false := by decide
theorem test_step_without_operand_ill_formed : (Instr.stepBy none none).wellFormed = false := by decide
theorem test_step_with_ones_ill_formed : (Instr.stepBy (some (.lit 2)) (some (.lit 3))).wellFormed = false := by decide
theorem test_transfer_with_ones_only_well_formed : (Instr.transfer none (some (.lit 3))).wellFormed = true := by decide

/-! ### Decoding: a word of every opcode, bit by bit from R71 to R75 (the digits are those of the table of T1.1) -/

theorem test_decode_keyboard : decodeCell 0b1_0000_0000_1001_1001_1001_1001#25 = .ok (.keyboard none none) := by decide
theorem test_decode_write :
    decodeCell 0b1_0000_0001_0001_0001_0001_1000#25 = .ok (.write (some .regX) (some .regY)) := by decide
theorem test_decode_read :
    decodeCell 0b1_0000_0010_0000_0000_0001_1001#25 = .ok (.read (some (.lit 0)) (some .star)) := by decide
theorem test_decode_copy :
    decodeCell 0b1_0000_0011_0000_0000_0010_0000#25 = .ok (.accToSec (some (.lit 0)) (some .vee)) := by decide
theorem test_decode_print : decodeCell 0b1_0000_0100_1001_1001_1001_1001#25 = .ok (.print none none) := by decide
theorem test_decode_add :
    decodeCell 0b1_0000_0101_0001_0001_0001_0101#25 = .ok (.add (some .regX) (some (.lit 15))) := by decide
theorem test_decode_sub :
    decodeCell 0b1_0000_0110_0000_0000_0000_0001#25 = .ok (.sub (some (.lit 0)) (some (.lit 1))) := by decide
theorem test_decode_mul :
    decodeCell 0b1_0000_0111_0000_0000_0000_0001#25 = .ok (.mul (some (.lit 0)) (some (.lit 1))) := by decide
theorem test_decode_div :
    decodeCell 0b1_0000_1000_0000_0000_0000_0011#25 = .ok (.div (some (.lit 0)) (some (.lit 3))) := by decide
theorem test_decode_alter :
    decodeCell 0b1_0000_1001_0000_0001_1001_1001#25 = .ok (.alter (some (.lit 1)) none) := by decide
theorem test_decode_transfer :
    decodeCell 0b1_0001_0000_0001_0000_0001_1000#25 = .ok (.transfer (some .regE) (some .regY)) := by decide
theorem test_decode_cond_transfer :
    decodeCell 0b1_0001_0001_0000_0001_0000_0101#25 = .ok (.condTransfer (some (.lit 1)) (some (.lit 5))) := by decide
theorem test_decode_home : decodeCell 0b1_0001_0010_1001_1001_1001_1001#25 = .ok (.home none none) := by decide
theorem test_decode_step : decodeCell 0b1_0001_0011_0001_0001_1001_1001#25 = .ok (.stepBy (some .regX) none) := by decide

/-- T1.1: the ones codes 16 and 17 name E and F. -/
theorem test_decode_ones_registers :
    decodeCell 0x1011016#25 = .ok (.write (some .regE) (some .regE)) ∧
      decodeCell 0x1021017#25 = .ok (.read (some .regE) (some .regF)) := by decide

/-- T1.3, R75: with bit 24 clear the other bits are ignored. -/
theorem test_decode_unwired : decodeCell 0x0070001#25 = .reject .unwired := by decide

/-- R78 (d): each reserved field is refused under its own name. -/
theorem test_decode_reserved :
    decodeCell 0x1140000#25 = .reject .badOpcode ∧ decodeCell 0x1001200#25 = .reject .badTens ∧
      decodeCell 0x1000021#25 = .reject .badOnes ∧ decodeCell 0x100000A#25 = .reject .badNibble := by decide

/-- T1.2: the images that fail. -/
theorem test_bad_images :
    decodeImage (-5) = .reject .notSixDigits ∧ decodeImage 1000000 = .reject .notSixDigits ∧
      decodeImage 140000 = .reject .badOpcode ∧ decodeImage 1299 = .reject .badTens ∧
      decodeImage 19899 = .reject .badTens ∧ decodeImage 2199 = .reject .badTens ∧
      decodeImage 10021 = .reject .badOnes ∧ decodeImage 10098 = .reject .badOnes := by decide

/-- T1.2: images that are valid, the largest among them. -/
theorem test_good_images :
    decodeImage 0 = .ok (.keyboard (some (.lit 0)) (some (.lit 0))) ∧
      decodeImage 19905 = .ok (.write none (some (.lit 5))) ∧ decodeImage 139999 = .ok (.stepBy none none) := by decide

/-- R74's own examples. -/
theorem test_image_examples :
    image (.write (some (.lit 3)) (some (.lit 5))) = 10305 ∧ image (.home none none) = 129999 ∧
      image (.read (some .regE) (some .regF)) = 21017 ∧ image (.stepBy (some (.lit 2)) none) = 130299 := by decide

/-- opcode_table.json: the match of `×` with every other bit 0 is `× 0 0`. -/
theorem test_table_word : decodeTableWord 25 0x1070000 = some (.mul (some (.lit 0)) (some (.lit 0))) := by decide

/-! ### The parameters -/

/-- R6, R7: P12 and P11 are the largest numbers of twelve and of eleven digits. -/
theorem test_bounds : Config.p12 = 10 ^ Config.wordDigits - 1 ∧ Config.p11 = 10 ^ Config.secDigits - 1 := by decide

/-- R200: the five codes. -/
theorem test_error_codes :
    ErrKind.missingPinboard.code = 1 ∧ ErrKind.missingInstruction.code = 2 ∧ ErrKind.invalidMemory.code = 3 ∧
      ErrKind.overflow.code = 4 ∧ ErrKind.divisionByZero.code = 5 := by decide

/-! ### The assembler syntax (S1) -/

theorem test_parse_valid :
    parseLine ['R', ' ', 'E', ' ', 'F'] = .ok (.read (some .regE) (some .regF)) ∧
      parseLine ['+', ' ', 'X', ' ', '1', '5'] = .ok (.add (some .regX) (some (.lit 15))) ∧
      parseLine ['U', ' ', '2'] = .ok (.transfer (some (.lit 2)) none) ∧
      parseLine ['÷', ' ', '9', ' ', 'V'] = .ok (.div (some (.lit 9)) (some .vee)) := by decide

theorem test_parse_errors :
    parseLine ['-', ' ', '0', ' ', '0'] = .error (.unknownOpcode ['-']) ∧
      parseLine ['W', ' ', '1', '0', ' ', '0'] = .error (.unknownTens ['1', '0']) ∧
      parseLine ['W', ' ', '0', ' ', '1', '6'] = .error (.unknownOnes ['1', '6']) ∧
      parseLine ['W', ' ', '0', ' ', '0', '7'] = .error (.unknownOnes ['0', '7']) ∧
      parseLine ['Q', ' ', '1', '0', ' ', '1', '6'] = .error (.unknownOpcode ['Q']) ∧
      parseLine [' '] = .error (.malformed []) ∧
      parseLine ['W', ' ', '0', ' ', '0', ' ', '0'] = .error (.malformed [['0']]) := by decide

/-! ### Small states -/

/-- The pinboard `b` with the instructions of a list wired from position `q` on. -/
def wireFrom (b : Pinboard) (q : Nat) : List Instr → Pinboard
  | [] => b
  | i :: rest => wireFrom (b.withCell q i) (q + 1) rest

/-- A pinboard with the listed instructions wired from position 0 on. -/
def board (l : List Instr) : Pinboard := wireFrom Pinboard.blank 0 l

/-- The reset state with one pinboard in slot 1. -/
def loaded (l : List Instr) : State := State.reset.setSlot 1 (some (board l))

/-- A state with one word of data memory written. -/
def withWord (s : State) (t o : Nat) (v : Int) : State := { s with mem := s.mem.write (dataAddr t o) v }

/-- What a step leaves in the registers a test looks at. -/
def seen (r : Result) : Option (Int × Int × Status × Option Nat) :=
  (nextOf r).map fun u => (u.acc, u.sec, u.status, curAt u u.cp)

/-- A literal operand. -/
abbrev t0 : Option TensDigit := some (.lit 0)
/-- A literal operand. -/
abbrev o0 : Option OnesDigit := some (.lit 0)

/-! ### One step of each instruction, from the vectors of the spec -/

/-- T3.1: `K` waits with the accumulator as it was. -/
theorem test_keyboard_waits : seen (step (loaded [.keyboard none none, .print none none])) = some (0, 0, .keyboard, some 0) :=
  by decide

/-- T3.2: the supplied word at the last wired position halts. -/
theorem test_supply_at_last_halts :
    transact (.supplyInput 9) ((loaded [.keyboard none none]).setStatus .keyboard)
      = (((loaded [.keyboard none none]).setStatus .halt).setAcc 9, .ok) := by decide

/-- T4.1: `W 3 5`. -/
theorem test_write :
    (nextOf (step ((withWord (loaded [.write (some (.lit 3)) (some (.lit 5)), .print none none]) 3 5 9).setAcc 123))).map
      (fun u => (u.word 3 5, u.acc, curAt u 1)) = some (123, 123, some 1) := by decide

/-- T4.3: `W 0 12`. -/
theorem test_write_outside_grid :
    seen (step ((loaded [.write t0 (some (.lit 12)), .print none none]).setAcc 5))
      = some (5, 0, .alarm ⟨.invalidMemory, .cell⟩, some 0) := by decide

/-- T4.2: `R 3 5`. -/
theorem test_read :
    seen (step ((withWord (loaded [.read (some (.lit 3)) (some (.lit 5)), .print none none]) 3 5 (-9)).setAcc 123))
      = some (-9, 0, .cont, some 1) := by decide

/-- P4, first step: `R E F` with E = 2, F = 7. -/
theorem test_read_through_registers :
    seen (step ((((withWord (loaded [.read (some .regE) (some .regF), .print none none]) 2 7 555).setCtl .e 2).setCtl .f 7)))
      = some (555, 0, .cont, some 1) := by decide

/-- T4.6: `B` with the largest magnitude that fits. -/
theorem test_copy_largest :
    seen (step (((loaded [.accToSec none none, .print none none]).setAcc (-99999999999)).setSec 9))
      = some (-99999999999, -99999999999, .cont, some 1) := by decide

/-- T4.7: `B` with one digit too many. -/
theorem test_copy_overflow :
    seen (step (((loaded [.accToSec none none, .print none none]).setAcc 100000000000).setSec 9))
      = some (100000000000, 9, .alarm ⟨.overflow, .none⟩, some 0) := by decide

/-- R122's example: `P` at the last wired position emits and halts. -/
theorem test_print_at_last :
    (nextOf (step ((loaded [.print none none]).setAcc 1000))).map (fun u => (u.out, u.status, curAt u 1))
      = some ([.print 1000], .halt, some 0) := by decide

/-- T2.11: `P 1` does not ignore its operand. -/
theorem test_print_with_operand :
    seen (step (loaded [.print (some (.lit 1)) none])) = some (0, 0, .alarm ⟨.missingInstruction, .uncovered⟩, some 0) := by
  decide

/-- T5.1: the largest sum that fits. -/
theorem test_add_largest :
    seen (step ((withWord (loaded [.add t0 o0, .print none none]) 0 0 1).setAcc 999999999998))
      = some (999999999999, 0, .cont, some 1) := by decide

/-- S6: the sum one above it. -/
theorem test_add_overflow :
    seen (step ((withWord (loaded [.add t0 o0, .print none none]) 0 0 1).setAcc 999999999999))
      = some (999999999999, 0, .alarm ⟨.overflow, .none⟩, some 0) := by decide

/-- T5.1: the accumulator is the minuend. -/
theorem test_sub :
    seen (step ((withWord (loaded [.sub t0 o0, .print none none]) 0 0 7).setAcc 5)) = some (-2, 0, .cont, some 1) := by
  decide

/-- T5.1: the most negative accumulator minus 1. -/
theorem test_sub_overflow :
    seen (step ((withWord (loaded [.sub t0 o0, .print none none]) 0 0 1).setAcc (-999999999999)))
      = some (-999999999999, 0, .alarm ⟨.overflow, .none⟩, some 0) := by decide

/-- T5.2: both parts of a negative product are negative. -/
theorem test_mul_negative :
    seen (step ((withWord (loaded [.mul t0 o0, .print none none]) 0 0 (-1000000)).setAcc 123456789012))
      = some (-789012000000, -123456, .cont, some 1) := by decide

/-- T5.2: a product just above 10^23. -/
theorem test_mul_overflow :
    seen (step (((withWord (loaded [.mul t0 o0, .print none none]) 0 0 316227766017).setAcc 316227766017).setSec 5))
      = some (316227766017, 5, .alarm ⟨.overflow, .none⟩, some 0) := by decide

/-- T5.3: the quotient truncates, the remainder has the dividend's sign, the old `SEC` plays no part. -/
theorem test_div_negative :
    seen (step (((withWord (loaded [.div t0 o0, .print none none]) 0 0 2).setAcc (-7)).setSec 5))
      = some (-3, -1, .cont, some 1) := by decide

/-- T5.3: a remainder of twelve digits. -/
theorem test_div_remainder_overflow :
    seen (step (((withWord (loaded [.div t0 o0, .print none none]) 0 0 900000000000).setAcc 500000000000).setSec 5))
      = some (500000000000, 5, .alarm ⟨.overflow, .none⟩, some 0) := by decide

/-- T6.3: `A` at the last wired position wires the next one, and the advance sees it. -/
theorem test_alter_extends_program :
    (nextOf (step ((loaded [.alter (some (.lit 1)) (some (.lit 1))]).setAcc 49999))).map
      (fun u => (cellAt u 1 1, curAt u 1, u.status)) = some (some (.print none none), some 1, .cont) := by decide

/-- T6.11: the target is checked before the image. -/
theorem test_alter_target_first :
    seen (step ((loaded [.alter (some (.lit 9)) (some (.lit 3))]).setAcc (-5)))
      = some (-5, 0, .alarm ⟨.invalidMemory, .target⟩, some 0) := by decide

/-- T7.3, first step: `U 2` resumes pinboard 2 at its own cursor and leaves the cursor of pinboard 1. -/
theorem test_transfer_to_other_pinboard :
    (nextOf (step ((loaded [.transfer (some (.lit 2)) none, .print none none]).setSlot 2
        (some ((board [.read t0 o0, .print none none]).withCur 1))))).map
      (fun u => (u.cp, curAt u 2, curAt u 1, u.status)) = some (2, some 1, some 0, .cont) := by decide

/-- T7.7: position 15 exists, wired or not. -/
theorem test_transfer_to_last_position :
    seen (step (loaded [.transfer (some (.lit 1)) (some (.lit 15)), .print none none])) = some (0, 0, .cont, some 15) := by
  decide

/-- T7.8: a negative accumulator takes the transfer. -/
theorem test_cond_transfer_taken :
    seen (step ((loaded [.condTransfer (some (.lit 1)) o0, .print none none]).setAcc (-1))) = some (-1, 0, .cont, some 0) := by
  decide

/-- T7.11: zero is not negative, and a target that does not exist does no harm while the transfer is not taken. -/
theorem test_cond_transfer_zero_falls_through :
    seen (step (loaded [.condTransfer (some (.lit 9)) o0, .print none none])) = some (0, 0, .cont, some 1) := by decide

/-- T7.14: `H` at the last wired position does not halt. -/
theorem test_home_at_last : seen (step (loaded [.home none none])) = some (0, 0, .cont, some 0) := by decide

/-- S8, third step: `H` at position 2 goes back to position 0. -/
theorem test_home_rewinds :
    seen (step ((loaded [.write t0 o0, .read t0 o0, .home none none]).setCursor 1 2)) = some (0, 0, .cont, some 0) := by
  decide

/-- T7.16, first step: the increment comes from X. -/
theorem test_step_by_register :
    seen (step ((loaded [.stepBy (some .regX) none, .print none none, .read t0 o0, .print none none]).setCtl .x 3))
      = some (0, 0, .cont, some 3) := by decide

/-- T7.17, second step: past the last wired position the cursor stays and the machine halts. -/
theorem test_step_by_past_last :
    seen (step ((loaded [.read t0 o0, .stepBy (some (.lit 5)) none, .print none none]).setCursor 1 1))
      = some (0, 0, .halt, some 1) := by decide

/-- S10: nothing loaded. -/
theorem test_missing_pinboard :
    step (State.reset.setAcc 7) = .next ((State.reset.setAcc 7).setStatus (.alarm ⟨.missingPinboard, .none⟩)) := rfl

/-- T2.5: the refusal of `V` comes before the shape check. -/
theorem test_vee_before_shape : step (loaded [.accToSec t0 (some .vee)]) = .refused .unsupported := rfl

/-- The word `W 3 5` placed after reset is the instruction the very next step runs. -/
theorem test_fetch_word :
    seen (step ((State.reset.withFetchWord 25 0x1010305).setAcc 7)) = some (7, 0, .halt, some 0) := by decide

/-- The data memory keeps its canonical form: writing what an unlisted address reads as removes the entry. -/
theorem test_memory_canonical :
    ((withWord (withWord State.reset 3 5 9) 1 2 4).mem, (withWord (withWord State.reset 3 5 9) 3 5 0).mem)
      = ([(12, 4), (35, 9)], []) := by decide

/-! ### Witnesses: the hypotheses of every statement can be met -/

/-- For StepRunsTheDecodedInstruction. -/
theorem witness_step_runs :
    (loaded [.print none none]).status = .cont ∧
      decodeCell (pcWord (loaded [.print none none])) = .ok (.print none none) := by decide

/-- For PlacedWordIsRunByTheNextStep. -/
theorem witness_placed_word :
    decodeTableWord 25 0x1010305 = some (.write (some (.lit 3)) (some (.lit 5))) ∧
      (loaded [.print none none]).slot 1 = some (board [.print none none]) ∧
      (board [.print none none]).cur < Config.capacity ∧ ((board []).withCur 15).cur < Config.capacity := by decide

/-- For PlacedWordIsRunByTheNextStep: the clauses of an empty slot, of a cursor out of range, and of `CP` out of range on
either side. -/
theorem witness_placed_word_unready :
    State.reset.slot State.reset.cp = none ∧ ¬((board []).withCur 16).cur < Config.capacity ∧
      ((State.reset.setCp 0).withFetchWord 25 0x1010305).cp = 1 ∧
      ((State.reset.setCp 8).withFetchWord 25 0x1010305).cp = 8 ∧
      ((State.reset.setCp 9).withFetchWord 25 0x1010305).cp = 1 := by decide

/-- For EmptySlotRaisesMissingPinboard. -/
theorem witness_empty_slot :
    State.reset.status = .cont ∧ State.reset.slot State.reset.cp = none ∧
      (loaded [.home none none]).slot 1 = some (board [.home none none]) ∧
      (board [.home none none]).cell 0 = some (.home none none) := by decide

/-- For UnwiredCellRaisesMissingInstruction. -/
theorem witness_unwired_cell :
    (loaded []).status = .cont ∧ (loaded []).slot 1 = some (board []) ∧ (board []).cell 0 = none ∧
      (board [.home none none]).cell (board [.home none none]).cur = some (.home none none) := by decide

/-- For StepOutsideContinueChangesNothing. -/
theorem witness_step_outside_continue :
    ((loaded []).setStatus .halt).status = .halt ∧ ((loaded []).setStatus .keyboard).status = .keyboard ∧
      ((loaded []).setStatus (.alarm Err.overflow)).status = .alarm Err.overflow := by decide

/-- For StepOutsideContinueChangesNothing, its last clause: a step into an alarm and one into no alarm. -/
theorem witness_step_reports :
    ((loaded []).status = .cont ∧ step (loaded []) = .next ((loaded []).setStatus (.alarm Err.unwired))) ∧
      (loaded [.print none none]).status = .cont ∧
      (nextOf (step (loaded [.print none none]))).map State.status = some .halt := ⟨⟨rfl, rfl⟩, rfl, by decide⟩

/-- For StarAndVeeAreUnsupported. -/
theorem witness_star_and_vee :
    (Instr.read t0 (some .star)).ones = some .star ∧ (Instr.home none (some .vee)).ones = some .vee ∧
      (loaded [.read t0 (some .star)]).status = .cont ∧
      fetch (loaded [.read t0 (some .star)]) = .ok (.read t0 (some .star)) := by decide

/-- For SubstitutionUsesTheControlRegisters. -/
theorem witness_substitution :
    (Instr.read t0 (some .regY)).op ≠ .alter ∧
      step (loaded [.read t0 (some .regY)]) = .next ((loaded [.read t0 (some .regY)]).setStatus .halt) ∧
      fetch (loaded [.read t0 (some .regY)]) = .ok (.read t0 (some .regY)) := ⟨by decide, rfl, rfl⟩

/-- For UncoveredShapeRaisesMissingInstruction. -/
theorem witness_uncovered :
    (Instr.stepBy none none).ones ≠ some .star ∧ (Instr.stepBy none none).ones ≠ some .vee ∧
      (Instr.stepBy none none).wellFormed = false ∧ (Instr.print none none).wellFormed = true ∧
      (loaded [.print none none]).status ≠ .alarm ⟨.missingInstruction, .uncovered⟩ ∧
      (nextOf (exec (.print none none) (loaded [.print none none]))).isSome := by decide

/-- For ExecutionErrorsArePrecise. -/
theorem witness_precise_error :
    exec (.accToSec none none) ((loaded []).setAcc 100000000000)
        = .next (((loaded []).setAcc 100000000000).setStatus (.alarm Err.overflow)) ∧
      ((loaded []).setAcc 100000000000).status ≠ .alarm Err.overflow := ⟨rfl, by decide⟩

/-- For KeyboardReadSuspends. -/
theorem witness_keyboard_operands :
    (some (.lit 3) : Option TensDigit) ≠ none ∧ (some (.lit 5) : Option OnesDigit) ≠ some .star ∧
      (some (.lit 5) : Option OnesDigit) ≠ some .vee := by decide

/-- For PrintEmitsTheAccumulator. `Ready` at the last wired position and below it. -/
theorem witness_print :
    Ready (loaded [.print none none]) (board [.print none none]) 0 ∧
      Ready (loaded [.print none none, .print none none]) (board [.print none none, .print none none]) 1 := by decide

/-- For SupplyInputCompletesTheKeyboardRead. -/
theorem witness_supply :
    (loaded []).status ≠ .keyboard ∧ ((loaded [.keyboard none none]).setStatus .keyboard).status = .keyboard ∧
      ¬ InWord12 1000000000000 ∧ InWord12 999999999999 ∧ InWord12 (-999999999999) ∧
      Ready ((loaded [.keyboard none none]).setStatus .keyboard) (board [.keyboard none none]) 0 := by decide

/-- For WriteStoresTheAccumulator, ReadLoadsTheAddressedWord, WriteThenReadGivesTheWordBack. The corner of the grid,
for `W`, `R` and the statement of their round trip. -/
theorem witness_write_and_read :
    Ready (loaded [.write (some (.lit 9)) (some (.lit 9))]) (board [.write (some (.lit 9)) (some (.lit 9))]) 0 ∧
      (loaded [.write (some (.lit 9)) (some (.lit 9))]).mem.wf ∧
      Both (loaded [.write (some (.lit 9)) (some (.lit 9))]) (some (.lit 9)) (some (.lit 9)) 9 9 := by decide

/-- For CopyToSecondaryKeepsTheAccumulator. -/
theorem witness_copy :
    Ready ((loaded [.accToSec none none]).setAcc (-99999999999)) (board [.accToSec none none]) 0 ∧
      ((loaded [.accToSec none none]).setAcc (-99999999999)).acc.natAbs < 10 ^ 11 := by decide

/-- For AccessorChecksBothDigits. -/
theorem witness_accessor :
    (9 < 10 ∨ 9 < 0) ∧ 9 ≤ 9 ∧ (loaded []).mem.wf ∧ ((9 : Nat) ≠ 0 ∨ (0 : Nat) ≠ 9) := by decide

/-- For MemoryDigitAboveNineRaisesInvalidMemory. The first ones digit outside the grid and the last. -/
theorem witness_digit_above_nine :
    (Instr.read t0 (some (.lit 10))).op ∈ [Opcode.write, .read, .add, .sub, .mul, .div] ∧
      Both State.reset t0 (some (.lit 10)) 0 10 ∧ Both State.reset t0 (some (.lit 15)) 0 15 := by decide

/-- For AluChecksRangesExactly. -/
theorem witness_alu_ranges :
    InWord12 999999999999 ∧ InWord12 (-999999999999) ∧ ¬ InWord12 1000000000000 := by decide

/-- For AddSumsIntoTheAccumulator. -/
theorem witness_add :
    Ready ((withWord (loaded [.add t0 o0]) 0 0 1).setAcc 999999999998) (board [.add t0 o0]) 0 ∧
      Both ((withWord (loaded [.add t0 o0]) 0 0 1).setAcc 999999999998) t0 o0 0 0 ∧
      (((withWord (loaded [.add t0 o0]) 0 0 1).setAcc 999999999998).acc
        + ((withWord (loaded [.add t0 o0]) 0 0 1).setAcc 999999999998).word 0 0).natAbs < 10 ^ 12 := by decide

/-- For SubtractTakesTheWordFromTheAccumulator. -/
theorem witness_sub :
    Ready ((withWord (loaded [.sub t0 o0]) 0 0 1).setAcc (-999999999998)) (board [.sub t0 o0]) 0 ∧
      Both ((withWord (loaded [.sub t0 o0]) 0 0 1).setAcc (-999999999998)) t0 o0 0 0 ∧
      (((withWord (loaded [.sub t0 o0]) 0 0 1).setAcc (-999999999998)).acc
        - ((withWord (loaded [.sub t0 o0]) 0 0 1).setAcc (-999999999998)).word 0 0).natAbs < 10 ^ 12 := by decide

/-- For MultiplySplitsTheProduct. -/
theorem witness_mul :
    Ready ((withWord (loaded [.mul t0 o0]) 0 0 100000000000).setAcc (-999999999999)) (board [.mul t0 o0]) 0 ∧
      Both ((withWord (loaded [.mul t0 o0]) 0 0 100000000000).setAcc (-999999999999)) t0 o0 0 0 ∧
      (((withWord (loaded [.mul t0 o0]) 0 0 100000000000).setAcc (-999999999999)).acc
        * ((withWord (loaded [.mul t0 o0]) 0 0 100000000000).setAcc (-999999999999)).word 0 0).natAbs < 10 ^ 23 := by decide

/-- For DivideGivesQuotientAndRemainder. -/
theorem witness_div :
    Ready ((withWord (loaded [.div t0 o0]) 0 0 100000000000).setAcc 999999999999) (board [.div t0 o0]) 0 ∧
      Both ((withWord (loaded [.div t0 o0]) 0 0 100000000000).setAcc 999999999999) t0 o0 0 0 ∧
      ((withWord (loaded [.div t0 o0]) 0 0 100000000000).setAcc 999999999999).word 0 0 ≠ 0 ∧
      (((withWord (loaded [.div t0 o0]) 0 0 100000000000).setAcc 999999999999).acc.tmod
        (((withWord (loaded [.div t0 o0]) 0 0 100000000000).setAcc 999999999999).word 0 0)).natAbs < 10 ^ 11 := by decide

/-- For ResultOutOfRangeRaisesOverflow. The smallest sum and difference that do not fit, and the smallest accumulator
`B` refuses. -/
theorem witness_overflow :
    Both (withWord State.reset 0 0 1) t0 o0 0 0 ∧
      10 ^ 12 ≤ (((withWord State.reset 0 0 1).setAcc 999999999999).acc
        + ((withWord State.reset 0 0 1).setAcc 999999999999).word 0 0).natAbs ∧
      10 ^ 12 ≤ (((withWord State.reset 0 0 1).setAcc (-999999999999)).acc
        - ((withWord State.reset 0 0 1).setAcc (-999999999999)).word 0 0).natAbs ∧
      10 ^ 11 ≤ (State.reset.setAcc 100000000000).acc.natAbs := by decide

/-- For ProductFromTenToThe23RaisesOverflow. -/
theorem witness_product_overflow :
    Both ((withWord State.reset 0 0 316227766017).setAcc 316227766017) t0 o0 0 0 ∧
      10 ^ 23 ≤ (((withWord State.reset 0 0 316227766017).setAcc 316227766017).acc
        * ((withWord State.reset 0 0 316227766017).setAcc 316227766017).word 0 0).natAbs := by decide

/-- For DivisionErrorsLeaveTheRegisters. -/
theorem witness_division_errors :
    Both State.reset t0 o0 0 0 ∧ State.reset.word 0 0 = 0 ∧
      ((withWord State.reset 0 0 100000000001).setAcc 100000000000).word 0 0 ≠ 0 ∧
      10 ^ 11 ≤ (((withWord State.reset 0 0 100000000001).setAcc 100000000000).acc.tmod
        (((withWord State.reset 0 0 100000000001).setAcc 100000000000).word 0 0)).natAbs := by decide

/-- For AlterWiresTheTargetCell. `A` aimed at its own pinboard past the old last position, and at another pinboard. -/
theorem witness_alter :
    Some1 (loaded [.alter (some (.lit 1)) (some (.lit 15))]) (some (.lit 1)) (some (.lit 15)) (some 1) (some 15) ∧
      resolveTarget (loaded [.alter (some (.lit 1)) (some (.lit 15))]) (some 1) (some 15) = some (1, 15) ∧
      ((loaded []).setAcc 49999).acc = image (.print none none) ∧
      (loaded [.alter (some (.lit 1)) (some (.lit 15))]).slot 1
        = some (board [.alter (some (.lit 1)) (some (.lit 15))]) ∧
      IsLast ((board [.alter (some (.lit 1)) (some (.lit 15))]).withCell 15 (.print none none)) 15 ∧
      resolveTarget ((loaded []).setSlot 8 (some (board []))) (some 8) none = some (8, 0) ∧
      IsLast (board [.alter (some (.lit 8)) none]) 0 := by decide

/-- For AlterChecksTargetThenImage, its first clause. -/
theorem witness_alter_bad_target :
    Some1 (loaded []) (some (.lit 9)) (some (.lit 3)) (some 9) (some 3) ∧
      resolveTarget (loaded []) (some 9) (some 3) = none ∧ resolveTarget (loaded []) (some 0) (some 3) = none ∧
      resolveTarget (loaded []) (some 2) none = none := by decide

/-- For AlterChecksTargetThenImage, its second clause. -/
theorem witness_alter_bad_image :
    resolveTarget (loaded []) (some 1) (some 3) ≠ none ∧ ∀ i : Instr, ((loaded []).setAcc (-1)).acc ≠ image i :=
  ⟨by decide, fun i h => by
    have h' : (-1 : Int) = image i := h
    omega⟩

/-- For AlteredCellIsFetchedNext. -/
theorem witness_altered_cell :
    (loaded [.alter (some (.lit 1)) (some (.lit 3))]).slot 1 = some (board [.alter (some (.lit 1)) (some (.lit 3))]) ∧
      (loaded [.alter (some (.lit 1)) (some (.lit 3))]).acc = image (.keyboard t0 o0) ∧
      IsLast (if (1 : Fin 10).val = (loaded []).cp then
        (board [.alter (some (.lit 1)) (some (.lit 3))]).withCell 3 (.keyboard t0 o0)
      else board [.alter (some (.lit 1)) (some (.lit 3))]) 3 := by decide

/-- For TransferSetsOnlyThePc. -/
theorem witness_transfer :
    Some1 (loaded []) (some (.lit 1)) (some (.lit 15)) (some 1) (some 15) ∧
      resolveTarget (loaded []) (some 1) (some 15) = some (1, 15) ∧
      Some1 (loaded []) none (some (.lit 3)) none (some 3) ∧
      resolveTarget (loaded []) none (some 3) = some (1, 3) ∧
      Some1 (loaded []) (some (.lit 1)) none (some 1) none ∧
      resolveTarget (loaded []) (some 1) none = some (1, 0) := by decide

/-- For ConditionalTransferTakenWhenNegative. -/
theorem witness_cond_transfer_taken :
    Some1 ((loaded []).setAcc (-1)) (some (.lit 1)) o0 (some 1) (some 0) ∧ ((loaded []).setAcc (-1)).acc < 0 ∧
      resolveTarget ((loaded []).setAcc (-1)) (some 1) (some 0) = some (1, 0) := by decide

/-- For ConditionalTransferFallsThrough. -/
theorem witness_cond_transfer_falls_through :
    Some1 (loaded [.condTransfer (some (.lit 9)) o0]) (some (.lit 9)) o0 (some 9) (some 0) ∧
      0 ≤ (loaded [.condTransfer (some (.lit 9)) o0]).acc ∧
      Ready (loaded [.condTransfer (some (.lit 9)) o0]) (board [.condTransfer (some (.lit 9)) o0]) 0 := by decide

/-- For MissingTransferTargetRaisesInvalidMemory. -/
theorem witness_missing_target :
    Some1 ((loaded []).setAcc (-1)) (some (.lit 9)) o0 (some 9) (some 0) ∧
      resolveTarget ((loaded []).setAcc (-1)) (some 9) (some 0) = none ∧ ((loaded []).setAcc (-1)).acc < 0 := by decide

/-- For HomeResetsTheCursor. -/
theorem witness_home :
    (loaded [.home none none]).slot (loaded [.home none none]).cp = some (board [.home none none]) ∧
      (t0 ≠ none ∨ (none : Option OnesDigit) ≠ none) := by decide

/-- For StepMovesTheCursorByItsDigit: an increment that lands on the last wired position, and one that goes past it.
-/
theorem witness_step_by :
    Ready (loaded [.stepBy (some (.lit 1)) none, .print none none])
        (board [.stepBy (some (.lit 1)) none, .print none none]) 1 ∧
      resolveTens (loaded []) (some (.lit 1)) = some 1 ∧ resolveTens (loaded []) (some (.lit 9)) = some 9 ∧
      (board [.stepBy (some (.lit 1)) none, .print none none]).cur + 1 ≤ 1 ∧
      1 < (board [.stepBy (some (.lit 1)) none, .print none none]).cur + 9 := by decide

/-- For HaltMeansPastTheLastWiredPosition: by `S`, and by the default advance of another instruction. -/
theorem witness_halt :
    exec (.stepBy (some (.lit 9)) none) (loaded [.print none none])
        = .next ((loaded [.print none none]).setStatus .halt) ∧
      (loaded [.print none none]).status ≠ .halt ∧
      exec (.accToSec none none) (loaded [.print none none])
        = .next (((loaded [.print none none]).setSec 0).setStatus .halt) := ⟨rfl, by decide, rfl⟩

/-- R174: `S 0` at the last wired position stays there and does not halt. -/
theorem test_step_zero_at_last :
    nextOf (step (loaded [.stepBy (some (.lit 0)) none])) = some (loaded [.stepBy (some (.lit 0)) none]) := by decide

/-- For OnlyWriteChangesTheDataMemory: a `W` inside the grid at its corner and one outside; two memories that agree on the
word `R` reads and differ elsewhere. -/
theorem witness_memory_use :
    Claims.Both State.reset (some (.lit 9)) (some (.lit 9)) 9 9 ∧
      Claims.Both State.reset t0 (some (.lit 10)) 0 10 ∧
      (nextOf (exec (.write (some (.lit 9)) (some (.lit 9))) (loaded [.print none none]))).isSome ∧
      (nextOf (exec (.write t0 (some (.lit 10))) (loaded [.print none none]))).isSome ∧
      Memory.read [(12, 4)] (dataAddr 0 0) = State.reset.mem.read (dataAddr 0 0) ∧
      Memory.read [(12, 4)] 12 ≠ State.reset.mem.read 12 ∧
      (nextOf (exec (.add t0 o0) (loaded [.print none none]))).isSome := by decide

/-- For OnlyWriteChangesTheDataMemory, OnlyAlterChangesTheProgramStore, OnlySetCtlWritesTheControlRegisters,
OnlyTransfersChangeTheCurrentPinboard, OnlyPrintExtendsTheOutput: an instruction that answers a next state and is not
`W`, not `A`; and one that moves `CP`. -/
theorem witness_frames :
    exec (.read t0 o0) (loaded [.read t0 o0]) = .next ((loaded [.read t0 o0]).setStatus .halt) ∧
      (Instr.read t0 o0).op ≠ .write ∧ (Instr.read t0 o0).op ≠ .alter ∧
      exec (.transfer (some (.lit 2)) o0) ((loaded []).setSlot 2 (some (board [])))
        = .next (((loaded []).setSlot 2 (some (board []))).setCp 2) := ⟨rfl, by decide, by decide, rfl⟩

/-- For OnlySetCtlWritesTheControlRegisters, its second clause. -/
theorem witness_only_set_ctl : Transaction.step ≠ .reset ∧ ∀ r d, Transaction.step ≠ .setCtl r d :=
  ⟨by decide, fun _ _ h => nomatch h⟩

/-- A loaded pinboard whose cursor is a position meets the invariant. -/
theorem loaded_inv (b : Pinboard) (hb : b.cur < Config.capacity) : (State.reset.setSlot 1 (some b)).Inv where
  acc := by show InWord12 0; decide
  sec := by show InWord11 0; decide
  cp := by show 1 ≤ 1 ∧ 1 ≤ Config.numSlots; decide
  cursors := fun p c hc => by
    rw [State.setSlot_slot, State.reset_slot] at hc
    split at hc <;> cases hc
    exact hb
  memForm := Memory.wf_reset
  memWords := fun _ h => nomatch h
  printed := fun _ h => nomatch h
  pendingKey := fun h => nomatch h
  alarmListed := fun _ h => nomatch h

/-- For EveryStepKeepsTheInvariant, EveryTransactionKeepsTheInvariant, StatusMovesOnlyAlongItsEdges. -/
theorem witness_invariant_step :
    (loaded [.print none none]).Inv ∧ (nextOf (step (loaded [.print none none]))).isSome :=
  ⟨loaded_inv _ (by decide), by decide⟩

/-- For EveryStepKeepsTheInvariant. The last position of a pinboard is a legal cursor. -/
theorem witness_invariant_last_cursor : (State.reset.setSlot 1 (some ((board []).withCur 15))).Inv :=
  loaded_inv _ (by decide)

/-- For ReachableStatesAreNeverStuck: a state that meets the invariant, and a reached one. -/
theorem witness_reachable :
    (loaded [.print none none]).Inv ∧ Reachable State.reset ∧ Reachable (transact (.selectPinboard 3) State.reset).1 :=
  ⟨loaded_inv _ (by decide), ⟨[], rfl⟩, [.selectPinboard 3], rfl⟩

/-- For EveryLawfulPolicyKeepsTheInvariant: a lawful target policy other than the default: the one that names no
target. -/
theorem witness_lawful_policy : ({ target := fun _ _ _ => none, cond := fun _ => true } : Policies).Lawful :=
  fun _ _ _ _ _ h => nomatch h

/-- For OnlyResetLeavesHaltAndAlarm. -/
theorem witness_halt_and_alarm :
    ((loaded []).setStatus .halt).status = .halt ∧
      (∃ e, ((loaded []).setStatus (.alarm Err.overflow)).status = .alarm e) ∧ Transaction.step ≠ .reset :=
  ⟨by decide, ⟨Err.overflow, rfl⟩, by decide⟩

/-- For LoadReplacesTheSlotAsAWhole. The first and the last slot are accepted; 0, 9, a short list and another status
are not. -/
theorem witness_loads :
    (loaded []).status = .cont ∧ (List.replicate 16 (none : Option Instr)).length = 16 ∧
      (transact (.loadPinboard 1 (List.replicate 16 none)) (loaded [])).2 = .ok ∧
      (transact (.removePinboard 8) (loaded [])).2 = .ok ∧
      (transact (.loadPinboard 0 (List.replicate 16 none)) (loaded [])).2 = .notAccepted ∧
      (transact (.loadPinboard 9 (List.replicate 16 none)) (loaded [])).2 = .notAccepted ∧
      (transact (.loadPinboard 1 (List.replicate 15 none)) (loaded [])).2 = .notAccepted ∧
      (transact (.removePinboard 1) ((loaded []).setStatus .halt)).2 = .notAccepted := by decide

/-- For PreloadsChangeOneElement. T8.5 and S2: the largest arguments each preload accepts, and the smallest it
refuses. -/
theorem witness_preloads :
    (transact (.setAcc (-999999999999)) (loaded [])).2 = .ok ∧ (transact (.setSec 99999999999) (loaded [])).2 = .ok ∧
      (transact (.setCtl .y 9) (loaded [])).2 = .ok ∧ (loaded []).mem.wf ∧
      (transact (.setMem 9 9 999999999999) (loaded [])).2 = .ok ∧
      (transact (.selectPinboard 8) (loaded [])).2 = .ok := by decide

/-- For RefusedPreloadsChangeNothing. -/
theorem witness_refused_preloads :
    (transact (.setAcc 1000000000000) (loaded [])).2 = .outOfRange ∧
      (transact (.setSec 100000000000) (loaded [])).2 = .outOfRange ∧
      (transact (.setCtl .e 10) (loaded [])).2 = .notAccepted ∧
      (transact (.setMem 10 0 1) (loaded [])).2 = .notAccepted ∧
      (transact (.setMem 0 0 (-1000000000000)) (loaded [])).2 = .outOfRange ∧
      (transact (.selectPinboard 0) (loaded [])).2 = .notAccepted ∧
      (transact (.selectPinboard 9) (loaded [])).2 = .notAccepted ∧
      ((loaded []).setStatus .keyboard).status ≠ .cont := by decide

/-- For CellWordsAndInstructionsAgree. -/
theorem witness_cell_word : decodeCell 0x1131120#25 = .ok (.stepBy (some .regX) (some .vee)) := by decide

/-- For CanonicalTextParsesBack. -/
theorem witness_canonical_text :
    canonicalText (.add (some .regX) (some (.lit 15))) = some ['+', ' ', 'X', ' ', '1', '5'] ∧
      canonicalText (.home none none) = some ['H'] ∧ canonicalText (.write none (some (.lit 5))) = none := by decide

end Sys2Proof.Tests
end

section
/-!
SUPPORT. What each move of the machine leaves unchanged, said once per element of the state: first of the advance (R107),
then, field by field, of everything an instruction can answer.
-/

namespace Sys2Proof.Machine

open Sys2Proof.Claims

/-- R27: moving a cursor changes no cell. -/
@[simp] theorem cellAt_setCursor (s : State) (p q r k : Nat) : cellAt (s.setCursor p q) r k = cellAt s r k := by
  unfold cellAt
  rw [State.setCursor_slot]
  split
  case isTrue h => subst h; cases s.slot r <;> rfl
  case isFalse => rfl

/-- R107: the advance changes the current cursor or the status, and nothing else. -/
theorem advance_frame {s u : State} (h : advance s = .next u) :
    u.cp = s.cp ∧ u.mem = s.mem ∧ u.acc = s.acc ∧ u.sec = s.sec ∧ CtlKept s u ∧ CellsKept s u ∧ u.out = s.out := by
  obtain ⟨b, l, -, -, ⟨-, rfl⟩ | ⟨-, rfl⟩⟩ := advance_cases h
  · exact ⟨rfl, rfl, rfl, rfl, State.setStatus_ctl s .halt, fun _ _ => rfl, rfl⟩
  · exact ⟨rfl, rfl, rfl, rfl, State.setCursor_ctl s _ _, cellAt_setCursor s _ _, rfl⟩

section
variable {pol : Policies} {i : Instr} {s u : State}

/-- R61: an instruction other than `W` leaves the data memory as it was. -/
theorem Answers.mem_kept (h : Answers pol i s u) (hi : i.op ≠ .write) : u.mem = s.mem := by
  cases h with
  | advanced he ha =>
    obtain ⟨-, hmem, -⟩ := advance_frame ha
    rw [hmem]
    cases he with
    | store hw => exact absurd hw hi
    | _ => rfl
  | _ => rfl

/-- R26: an instruction other than `U` and `C` leaves `CP` as it was. -/
theorem Answers.cp_kept (h : Answers pol i s u) (hi : ¬ (i.op = .transfer ∨ i.op = .condTransfer)) : u.cp = s.cp := by
  cases h with
  | advanced he ha =>
    obtain ⟨hcp, -⟩ := advance_frame ha
    exact hcp.trans he.cp
  | transferred ht => exact absurd ht hi
  | _ => rfl

/-- R23: no instruction changes a control register. -/
theorem Answers.ctlKept (h : Answers pol i s u) : CtlKept s u := by
  intro r
  cases h with
  | advanced he ha =>
    obtain ⟨-, -, -, -, hctl, -⟩ := advance_frame ha
    exact (hctl r).trans (he.ctl r)
  | _ => simp

/-- R160: an instruction other than `A` changes no cell. -/
theorem Answers.cellsKept (h : Answers pol i s u) (hi : i.op ≠ .alter) : CellsKept s u := by
  intro p q
  cases h with
  | advanced he ha =>
    obtain ⟨-, -, -, -, -, hcells, -⟩ := advance_frame ha
    rw [hcells]
    cases he with
    | rewire hw => exact absurd hw hi
    | _ => rfl
  | alarm | waits | steppedPast => rfl
  | transferred => exact cellAt_setCursor (s.setCp _) _ _ p q
  | homed | stepped => exact cellAt_setCursor s _ _ p q

/-- R38: an instruction other than `P` emits nothing. -/
theorem Answers.out_kept (h : Answers pol i s u) (hi : i.op ≠ .print) : u.out = s.out := by
  cases h with
  | advanced he ha =>
    obtain ⟨-, -, -, -, -, -, hout⟩ := advance_frame ha
    rw [hout]
    cases he with
    | print hp => exact absurd hp hi
    | _ => rfl
  | _ => rfl

end

end Sys2Proof.Machine
end

section
/-!
SUPPORT. Two runs of one operation from states that differ in the data memory alone, for each shared operation: the errors,
the advance, the operand shapes and the read of one word.
-/

namespace Sys2Proof.Machine

open Sys2Proof.Claims

/-- R35: the state with its data memory replaced as a whole. -/
def State.withMem (s : State) (m : Memory) : State := { s with mem := m }

@[simp] theorem State.withMem_acc (s : State) (m : Memory) : (s.withMem m).acc = s.acc := rfl
@[simp] theorem State.withMem_cp (s : State) (m : Memory) : (s.withMem m).cp = s.cp := rfl
@[simp] theorem State.withMem_slot (s : State) (m : Memory) (p : Nat) : (s.withMem m).slot p = s.slot p := rfl
@[simp] theorem State.withMem_word (s : State) (m : Memory) (t o : Nat) :
    (s.withMem m).word t o = m.read (dataAddr t o) := rfl

@[simp] theorem resolveTens_withMem (s : State) (m : Memory) (t : Option TensDigit) :
    resolveTens (s.withMem m) t = resolveTens s t := rfl
@[simp] theorem resolveOnes_withMem (s : State) (m : Memory) (o : Option OnesDigit) :
    resolveOnes (s.withMem m) o = resolveOnes s o := rfl
@[simp] theorem resolveTarget_withMem (s : State) (m : Memory) (tn on : Option Nat) :
    resolveTarget (s.withMem m) tn on = resolveTarget s tn on := rfl
@[simp] theorem accNegative_withMem (s : State) (m : Memory) : accNegative (s.withMem m) = accNegative s := rfl

theorem sameButMem_next (s : State) (m : Memory) : SameButMem (.next s) (.next (s.withMem m)) := ⟨m, rfl⟩

theorem sameButMem_alarm (s : State) (m : Memory) (e : Err) :
    SameButMem (.next (raiseAlarm s e)) (.next (raiseAlarm (s.withMem m) e)) := ⟨m, rfl⟩

variable {t : Option TensDigit} {o : Option OnesDigit}

theorem orAlarm_sameButMem {α : Type} (s : State) (m : Memory) (r : Except Err α) {k k' : α → Result}
    (h : ∀ a, SameButMem (k a) (k' a)) : SameButMem (orAlarm s r k) (orAlarm (s.withMem m) r k') := by
  cases r with
  | error e => exact sameButMem_alarm s m e
  | ok a => exact h a

/-- R107, R174: halting or moving the current cursor looks at no word of memory. -/
theorem haltOrMove_sameButMem (s : State) (m : Memory) (c : Prop) [Decidable c] (q : Nat) :
    SameButMem (if c then .next (s.setStatus .halt) else .next (s.setCursor s.cp q))
      (if c then .next ((s.withMem m).setStatus .halt) else .next ((s.withMem m).setCursor s.cp q)) := by
  split
  · exact sameButMem_next (s.setStatus .halt) m
  · exact sameButMem_next (s.setCursor s.cp q) m

/-- R107: the advance looks at no word of memory. -/
theorem advance_sameButMem (s : State) (m : Memory) : SameButMem (advance s) (advance (s.withMem m)) := by
  simp only [advance, State.withMem_slot, State.withMem_cp]
  cases s.slot s.cp with
  | none => rfl
  | some b =>
    dsimp only
    cases b.last? with
    | none => rfl
    | some l => exact haltOrMove_sameButMem s m (l ≤ b.cur) (b.cur + 1)

/-- R103, R104: the refusal and the substitution look at no word of memory. -/
theorem withOperands_sameButMem (s : State) (m : Memory) {k k' : Option Nat → Option Nat → Result}
    (h : ∀ on, resolveOnes s o = .ok on → SameButMem (k (resolveTens s t) on) (k' (resolveTens s t) on)) :
    SameButMem (withOperands t o s k) (withOperands t o (s.withMem m) k') := by
  simp only [withOperands, resolveOnes_withMem, resolveTens_withMem]
  cases ho : resolveOnes s o with
  | error r => rfl
  | ok on => exact h on ho

theorem noOperands_sameButMem (s : State) (m : Memory) {k k' : Result} (h : SameButMem k k') :
    SameButMem (noOperands t o s k) (noOperands t o (s.withMem m) k') :=
  withOperands_sameButMem s m fun on _ =>
    match resolveTens s t, on with
    | none, none => h
    | none, some _ | some _, _ => sameButMem_alarm s m Err.uncovered

theorem bothOperands_sameButMem (s : State) (m : Memory) {k k' : Nat → Nat → Result}
    (h : ∀ a n, Both s t o a n → SameButMem (k a n) (k' a n)) :
    SameButMem (bothOperands t o s k) (bothOperands t o (s.withMem m) k') := by
  refine withOperands_sameButMem s m fun on ho => ?_
  cases ht : resolveTens s t with
  | none => exact sameButMem_alarm s m Err.uncovered
  | some a =>
    cases on with
    | none => exact sameButMem_alarm s m Err.uncovered
    | some n => exact h a n ⟨ht, ho⟩

theorem someOperand_sameButMem (s : State) (m : Memory) {k k' : Option Nat → Option Nat → Result}
    (h : ∀ tn on, SameButMem (k tn on) (k' tn on)) :
    SameButMem (someOperand t o s k) (someOperand t o (s.withMem m) k') :=
  withOperands_sameButMem s m fun on _ =>
    match resolveTens s t, on with
    | none, none => sameButMem_alarm s m Err.uncovered
    | none, some n => h none (some n)
    | some a, on => h (some a) on

theorem tensOperand_sameButMem (s : State) (m : Memory) {k k' : Nat → Result} (h : ∀ n, SameButMem (k n) (k' n)) :
    SameButMem (tensOperand t o s k) (tensOperand t o (s.withMem m) k') :=
  withOperands_sameButMem s m fun on _ =>
    match resolveTens s t, on with
    | some a, none => h a
    | none, _ | some _, some _ => sameButMem_alarm s m Err.uncovered

/-- R51: an instruction that reads one word depends on that word alone. -/
theorem reading_sameButMem (s : State) (m : Memory) {k k' : Int → Result}
    (hm : ∀ a n, Both s t o a n → n ≤ 9 → m.read (dataAddr a n) = s.mem.read (dataAddr a n))
    (hk : ∀ v, SameButMem (k v) (k' v)) :
    SameButMem (bothOperands t o s fun a n => orAlarm s (memRead s a n) k)
      (bothOperands t o (s.withMem m) fun a n => orAlarm (s.withMem m) (memRead (s.withMem m) a n) k') := by
  refine bothOperands_sameButMem s m fun a n hb => ?_
  have hr : memRead (s.withMem m) a n = memRead s a n := by
    have ha : a ≤ 9 := resolveTens_le hb.1
    by_cases hn : n ≤ 9
    · rw [memRead_grid _ ha hn, memRead_grid _ ha hn, State.withMem_word, hm a n hb hn]; rfl
    · rw [memRead_outside _ (by omega), memRead_outside _ (by omega)]
  rw [hr]
  exact orAlarm_sameButMem s m _ hk

/-- R110: a transfer looks at no word of memory. -/
theorem transferTo_sameButMem (s : State) (m : Memory) (tn on : Option Nat) :
    SameButMem (transferTo resolveTarget s tn on) (transferTo resolveTarget (s.withMem m) tn on) := by
  simp only [transferTo, resolveTarget_withMem]
  cases resolveTarget s tn on with
  | none => exact sameButMem_alarm s m Err.target
  | some pq => exact sameButMem_next ((s.setCp pq.1).setCursor pq.1 pq.2) m

end Sys2Proof.Machine
end

section
/-!
SUPPORT. R61 of each instruction: what it does to two states that differ in the data memory alone, and what `W` writes.
-/

namespace Sys2Proof.Machine

open Sys2Proof.Claims

section
variable (t : Option TensDigit) (o : Option OnesDigit) (s : State) (m : Memory)

/-- R130: `W` looks at no word, not even at the one it replaces. -/
theorem execWrite_sameButMem : SameButMem (execWrite t o s) (execWrite t o (s.withMem m)) := by
  refine bothOperands_sameButMem s m fun a n hb => ?_
  have ha : a ≤ 9 := resolveTens_le hb.1
  by_cases hn : n ≤ 9
  · rw [memWrite_grid _ _ ha hn, memWrite_grid _ _ ha hn]
    exact advance_sameButMem (s.withMem (s.mem.write (dataAddr a n) s.acc)) (m.write (dataAddr a n) s.acc)
  · rw [memWrite_outside _ _ (by omega), memWrite_outside _ _ (by omega)]
    exact sameButMem_alarm s m Err.cell

theorem execAccToSec_sameButMem : SameButMem (execAccToSec t o s) (execAccToSec t o (s.withMem m)) :=
  noOperands_sameButMem s m (orAlarm_sameButMem s m (narrow11 s.acc) fun v => advance_sameButMem (s.setSec v) m)

theorem execAlter_sameButMem : SameButMem (execAlter t o s) (execAlter t o (s.withMem m)) := by
  unfold execAlter alterUnder
  refine someOperand_sameButMem s m fun tn on => ?_
  simp only [resolveTarget_withMem, State.withMem_acc]
  cases resolveTarget s tn on with
  | none => exact sameButMem_alarm s m Err.target
  | some pq =>
    cases decodeImage s.acc with
    | reject _ => exact sameButMem_alarm s m Err.badImage
    | ok i => exact advance_sameButMem (s.setCell pq.1 pq.2 i) m

theorem execCondTransfer_sameButMem : SameButMem (execCondTransfer t o s) (execCondTransfer t o (s.withMem m)) := by
  unfold execCondTransfer condTransferUnder
  refine someOperand_sameButMem s m fun tn on => ?_
  rw [accNegative_withMem]
  split
  · exact transferTo_sameButMem s m tn on
  · exact advance_sameButMem s m

theorem execHome_sameButMem : SameButMem (execHome t o s) (execHome t o (s.withMem m)) := by
  refine noOperands_sameButMem s m ?_
  simp only [State.withMem_slot, State.withMem_cp]
  cases s.slot s.cp with
  | none => rfl
  | some b => exact sameButMem_next (s.setCursor s.cp 0) m

theorem execStepBy_sameButMem : SameButMem (execStepBy t o s) (execStepBy t o (s.withMem m)) := by
  refine tensOperand_sameButMem s m fun n => ?_
  simp only [State.withMem_slot, State.withMem_cp]
  cases s.slot s.cp with
  | none => rfl
  | some b =>
    dsimp only
    cases b.last? with
    | none => rfl
    | some l => exact haltOrMove_sameButMem s m (l < b.cur + n) (b.cur + n)

/-- R61: an instruction other than `R + − × ÷` depends on no word of memory. -/
theorem exec_sameButMem_of_reads_no_word (i : Instr) (hi : i.op ∉ [Opcode.read, .add, .sub, .mul, .div]) :
    SameButMem (exec i s) (exec i (s.withMem m)) := by
  cases i with
  | keyboard t o => exact noOperands_sameButMem s m (sameButMem_next (s.setStatus .keyboard) m)
  | write t o => exact execWrite_sameButMem t o s m
  | accToSec t o => exact execAccToSec_sameButMem t o s m
  | print t o => exact noOperands_sameButMem s m (advance_sameButMem (s.emit (.print s.acc)) m)
  | alter t o => exact execAlter_sameButMem t o s m
  | transfer t o => exact someOperand_sameButMem s m (transferTo_sameButMem s m)
  | condTransfer t o => exact execCondTransfer_sameButMem t o s m
  | home t o => exact execHome_sameButMem t o s m
  | stepBy t o => exact execStepBy_sameButMem t o s m
  | read | add | sub | mul | div => exact absurd (by simp [Instr.op]) hi

/-- R61: `R + − × ÷` depend on the one word their operands address. -/
theorem exec_sameButMem_of_same_word (i : Instr) (hi : i.op ∈ [Opcode.read, .add, .sub, .mul, .div])
    (hm : ∀ a n, Both s i.tens i.ones a n → n ≤ 9 → m.read (dataAddr a n) = s.mem.read (dataAddr a n)) :
    SameButMem (exec i s) (exec i (s.withMem m)) := by
  cases i with
  | read t o => exact reading_sameButMem s m hm fun w => advance_sameButMem (s.setAcc w) m
  | add t o =>
    exact reading_sameButMem s m hm fun w =>
      orAlarm_sameButMem s m (add12 s.acc w) fun v => advance_sameButMem (s.setAcc v) m
  | sub t o =>
    exact reading_sameButMem s m hm fun w =>
      orAlarm_sameButMem s m (sub12 s.acc w) fun v => advance_sameButMem (s.setAcc v) m
  | mul t o =>
    exact reading_sameButMem s m hm fun w =>
      orAlarm_sameButMem s m (mulSplit s.acc w) fun v => advance_sameButMem ((s.setAcc v.1).setSec v.2) m
  | div t o =>
    exact reading_sameButMem s m hm fun w =>
      orAlarm_sameButMem s m (divRem s.acc w) fun v => advance_sameButMem ((s.setAcc v.1).setSec v.2) m
  | _ => exact absurd hi (by simp [Instr.op])

end

/-- R130, R51: `W` stores `ACC` at its one address, or nothing where the ones digit is outside the grid. -/
theorem execWrite_mem {t : Option TensDigit} {o : Option OnesDigit} {s u : State} {a n : Nat} (hb : Both s t o a n)
    (h : execWrite t o s = .next u) :
    u.mem = if n ≤ 9 then s.mem.write (dataAddr a n) s.acc else s.mem := by
  obtain ⟨ht, ho⟩ := hb
  have ha : a ≤ 9 := resolveTens_le ht
  unfold execWrite at h
  rw [bothOperands_present _ ht ho] at h
  split
  case isTrue hn =>
    rw [memWrite_grid s s.acc ha hn] at h
    obtain ⟨-, hmem, -⟩ := advance_frame h
    exact hmem
  case isFalse hn =>
    rw [memWrite_outside s s.acc (by omega)] at h
    cases h
    rfl

/-- R61: of the rest of the state, the arithmetic opcodes leave `CP`, the control registers, the cells and the output. -/
theorem arithmetic_frame {i : Instr} {s u : State} (hi : i.op ∈ [Opcode.add, .sub, .mul, .div])
    (h : exec i s = .next u) : u.cp = s.cp ∧ CtlKept s u ∧ CellsKept s u ∧ u.out = s.out := by
  have hans := exec_answers h
  have hop : ¬ (i.op = .transfer ∨ i.op = .condTransfer) ∧ i.op ≠ .alter ∧ i.op ≠ .print := by
    revert hi
    cases i.op <;> decide
  obtain ⟨hjump, halter, hprint⟩ := hop
  exact ⟨hans.cp_kept hjump, hans.ctlKept, hans.cellsKept halter, hans.out_kept hprint⟩

/-- Settles O39: the frame of every answer for what is written, and the two runs side by side for what is read. -/
theorem onlyWriteChangesTheDataMemory : Obligations.OnlyWriteChangesTheDataMemory :=
  ⟨fun _ _ _ h hi => (exec_answers h).mem_kept hi,
    fun _ _ _ _ _ _ hb h => execWrite_mem hb h,
    fun i s m hi => exec_sameButMem_of_reads_no_word s m i hi,
    fun i s m hi hm => exec_sameButMem_of_same_word s m i hi hm,
    fun _ _ _ hi h => arithmetic_frame hi h⟩

end Sys2Proof.Machine
end

section
/-!
PROOF. The substitution of special digits (R104): what a resolved ones operand can be, what a step leaves unchanged of the
cells and the control registers, and the statement put together from these and the laws of the operands.
-/

namespace Sys2Proof.Machine

open Sys2Proof.Claims

/-- R103, R104: an operand that resolves is none of the refused symbols, so it keeps its presence and lies in 0 to 15. -/
theorem resolveOnes_present_le {s : State} {o : Option OnesDigit} {on : Option Nat} (h : resolveOnes s o = .ok on) :
    on.isSome = o.isSome ∧ ∀ n, on = some n → n ≤ 15 := by
  have hstar : o ≠ some .star := by
    rintro rfl
    cases h
  have hvee : o ≠ some .vee := by
    rintro rfl
    cases h
  obtain ⟨on', hon', hpresent, hle⟩ := resolveOnes_ok s hstar hvee
  obtain rfl : on' = on := Except.ok.inj (hon'.symm.trans h)
  exact ⟨hpresent, hle⟩

/-- R104: a step whose fetched instruction is not `A` changes no cell and no control register, in every status. -/
theorem step_keeps_cells_and_ctl {s u : State} {i : Instr} (hi : i.op ≠ .alter) (hf : fetch s = .ok i)
    (h : step s = .next u) : CellsKept s u ∧ CtlKept s u := by
  by_cases hs : s.status = .cont
  · have hrun : step s = exec i s := stepUsing_run hs hf
    have hans := exec_answers (hrun.symm.trans h)
    exact ⟨hans.cellsKept hi, hans.ctlKept⟩
  · have hidle : step s = .next s := stepUsing_idle hs
    obtain rfl : s = u := Host.Outcome.next.inj (hidle.symm.trans h)
    exact ⟨fun _ _ => rfl, fun _ => rfl⟩

/-- Settles O7: each placeholder by the table of R104, the presence and the ranges by the laws of the two resolutions, and
the stored copy by the frame of a step. -/
theorem substitutionUsesTheControlRegisters : Obligations.SubstitutionUsesTheControlRegisters := fun s =>
  ⟨rfl, fun _ => rfl, rfl, rfl, rfl, fun _ => rfl, rfl, rfl, rfl,
    fun t => ⟨resolveTens_isSome s t, fun _ => resolveTens_le⟩,
    fun _ _ => resolveOnes_present_le,
    fun _ _ hi h hf => step_keeps_cells_and_ctl hi hf h⟩

end Sys2Proof.Machine
end

section
/-!
PROOF. The range checks of the ALU (R141 to R143): the two word ranges as bounds of the magnitude, as the symmetric bounds
of D1 give them, what negation keeps, and the statement put together from these.
-/

namespace Sys2Proof.Machine

/-- R141, D1: the primary words are the integers of at most twelve decimal digits. -/
theorem inWord12_iff_natAbs_le (v : Int) : InWord12 v ↔ v.natAbs ≤ 999999999999 := by
  unfold InWord12 Config.p12
  omega

/-- R141, D1: the secondary words are the integers of at most eleven decimal digits. -/
theorem inWord11_iff_natAbs_le (v : Int) : InWord11 v ↔ v.natAbs ≤ 99999999999 := by
  unfold InWord11 Config.p11
  omega

/-- D1: the twelve-digit range is symmetric. -/
theorem inWord12_neg {v : Int} (h : InWord12 v) : InWord12 (-v) := by
  rwa [inWord12_iff_natAbs_le, Int.natAbs_neg, ← inWord12_iff_natAbs_le]

/-- R142: subtraction is the addition of the negated operand, the error included. -/
theorem sub12_eq_add12_neg (a b : Int) : sub12 a b = add12 a (-b) := by
  unfold sub12 add12
  rw [Int.sub_eq_add_neg]

/-- R142: the sum of two primary words before its range check. -/
theorem natAbs_add_le_of_inWord12 {a b : Int} (ha : InWord12 a) (hb : InWord12 b) :
    (a + b).natAbs ≤ 1999999999998 :=
  calc (a + b).natAbs ≤ a.natAbs + b.natAbs := Int.natAbs_add_le a b
    _ ≤ 999999999999 + 999999999999 :=
      Nat.add_le_add ((inWord12_iff_natAbs_le a).1 ha) ((inWord12_iff_natAbs_le b).1 hb)

/-- R142: the difference of two primary words before its range check. -/
theorem natAbs_sub_le_of_inWord12 {a b : Int} (ha : InWord12 a) (hb : InWord12 b) :
    (a - b).natAbs ≤ 1999999999998 :=
  Int.sub_eq_add_neg ▸ natAbs_add_le_of_inWord12 ha (inWord12_neg hb)

/-- Settles O20: each check is a word range, so a bound of the magnitude; a difference is the sum with the negated operand,
which is a word again. -/
theorem aluChecksRangesExactly : Obligations.AluChecksRangesExactly := fun a b =>
  ⟨if_congr (inWord12_iff_natAbs_le a) rfl rfl,
    if_congr (inWord11_iff_natAbs_le a) rfl rfl,
    if_congr (inWord12_iff_natAbs_le (a + b)) rfl rfl,
    if_congr (inWord12_iff_natAbs_le (a - b)) rfl rfl,
    if_congr (inWord11_iff_natAbs_le a) rfl rfl,
    sub12_eq_add12_neg a b,
    inWord12_neg,
    fun ha hb => ⟨natAbs_add_le_of_inWord12 ha hb, natAbs_sub_le_of_inWord12 ha hb⟩⟩

end Sys2Proof.Machine
end

section
/-!
PROOF. When an instruction answers a next state at all: it is refused exactly for a ones digit `*` or `V` (R103), and where
the fetch has succeeded nothing else stops it, because `Last` is defined there (R102, R34). With it O6 and O10.
-/

namespace Sys2Proof.Machine

/-! ### Answers that are a next state -/

/-- The answer is a next state: no fault and no refusal. -/
def Completes (r : Result) : Prop := ∃ u, r = .next u

theorem completes_next (u : State) : Completes (.next u) := ⟨u, rfl⟩

/-- R34: the current slot is loaded and `Last` is defined for it. -/
def State.HasLast (s : State) : Prop := ∃ b l, s.slot s.cp = some b ∧ b.last? = some l

theorem hasLast_of_fetch {s : State} {i : Instr} (h : fetch s = .ok i) : s.HasLast := by
  obtain ⟨b, l, hb, -, hl, -⟩ := fetch_ok h
  exact ⟨b, l, hb, hl⟩

/-- R160: wiring a cell unwires none. -/
theorem Pinboard.withCell_cell_isSome {b : Pinboard} {r : Nat} (q : Nat) (i : Instr) (h : (b.cell r).isSome) :
    ((b.withCell q i).cell r).isSome := by
  by_cases hq : q < Config.capacity
  · rw [Pinboard.withCell_cell b q r i hq]
    split
    · rfl
    · exact h
  · have hsame : b.withCell q i = b := by
      simp [Pinboard.withCell, Vector.setIfInBounds_eq_of_size_le (Nat.le_of_not_lt hq)]
    rwa [hsame]

/-- R160, R34: wiring a cell leaves `Last` defined. -/
theorem State.HasLast.setCell {s : State} (h : s.HasLast) (p q : Nat) (i : Instr) : (s.setCell p q i).HasLast := by
  obtain ⟨b, l, hb, hl⟩ := h
  by_cases hp : s.cp = p
  · obtain ⟨⟨j, hj⟩, -⟩ := Pinboard.last?_spec hl
    have hw : ((b.withCell q i).cell l).isSome := Pinboard.withCell_cell_isSome q i (by simp [hj])
    obtain ⟨j', hj'⟩ := Option.isSome_iff_exists.1 hw
    obtain ⟨l', hl', -⟩ := Pinboard.last?_of_wired hj'
    exact ⟨_, l', by rw [State.setCell_slot, State.setCell_cp, if_pos hp, ← hp, hb]; rfl, hl'⟩
  · exact ⟨b, l, by rw [State.setCell_slot, State.setCell_cp, if_neg hp, hb], hl⟩

theorem advance_completes {s : State} (h : s.HasLast) : Completes (advance s) := by
  obtain ⟨b, l, hb, hl⟩ := h
  by_cases hc : l ≤ b.cur
  · exact ⟨_, advance_at_last hb hl hc⟩
  · exact ⟨_, advance_below hb hl (Nat.lt_of_not_le hc)⟩

theorem orAlarm_completes {α : Type} {s : State} (r : Except Err α) {k : α → Result} (h : ∀ a, Completes (k a)) :
    Completes (orAlarm s r k) := by
  cases r with
  | error e => exact completes_next _
  | ok a => exact h a

/-! ### The operand shapes -/

section
variable {t : Option TensDigit} {o : Option OnesDigit} {s : State}

/-- R103, R104: what holds of the continuation on every pair of operands of the same presence holds of the whole, where the
ones digit is not refused. -/
theorem withOperands_of {P : Result → Prop} {k : Option Nat → Option Nat → Result} (h1 : o ≠ some .star)
    (h2 : o ≠ some .vee) (h : ∀ tn on, tn.isSome = t.isSome → on.isSome = o.isSome → P (k tn on)) :
    P (withOperands t o s k) := by
  obtain ⟨on, ho, hpresent, -⟩ := resolveOnes_ok s h1 h2
  rw [withOperands_ok t k ho]
  exact h _ on (resolveTens_isSome s t) hpresent

theorem noOperands_completes {k : Result} (h1 : o ≠ some .star) (h2 : o ≠ some .vee) (h : Completes k) :
    Completes (noOperands t o s k) :=
  withOperands_of h1 h2 fun tn on _ _ =>
    match tn, on with
    | none, none => h
    | none, some _ | some _, _ => completes_next _

theorem bothOperands_completes {k : Nat → Nat → Result} (h1 : o ≠ some .star) (h2 : o ≠ some .vee)
    (h : ∀ a n, Completes (k a n)) : Completes (bothOperands t o s k) :=
  withOperands_of h1 h2 fun tn on _ _ =>
    match tn, on with
    | some a, some n => h a n
    | none, _ | some _, none => completes_next _

theorem someOperand_completes {k : Option Nat → Option Nat → Result} (h1 : o ≠ some .star) (h2 : o ≠ some .vee)
    (h : ∀ tn on, Completes (k tn on)) : Completes (someOperand t o s k) :=
  withOperands_of h1 h2 fun tn on _ _ =>
    match tn, on with
    | none, none => completes_next _
    | none, some n => h none (some n)
    | some a, on => h (some a) on

theorem tensOperand_completes {k : Nat → Result} (h1 : o ≠ some .star) (h2 : o ≠ some .vee)
    (h : ∀ n, Completes (k n)) : Completes (tensOperand t o s k) :=
  withOperands_of h1 h2 fun tn on _ _ =>
    match tn, on with
    | some n, none => h n
    | none, _ | some _, some _ => completes_next _

/-- R51: what the instructions that read one word share. -/
theorem reading_completes {k : Int → Result} (h1 : o ≠ some .star) (h2 : o ≠ some .vee) (h : ∀ v, Completes (k v)) :
    Completes (bothOperands t o s fun a n => orAlarm s (memRead s a n) k) :=
  bothOperands_completes h1 h2 fun a n => orAlarm_completes (memRead s a n) h

end

/-! ### The instructions -/

section
variable {s : State} (target : TargetPolicy)

theorem transferTo_completes (tn on : Option Nat) : Completes (transferTo target s tn on) := by
  unfold transferTo
  cases target s tn on <;> exact completes_next _

variable {t : Option TensDigit} {o : Option OnesDigit} (h1 : o ≠ some .star) (h2 : o ≠ some .vee) (hl : s.HasLast)
include h1 h2 hl

theorem execWrite_completes : Completes (execWrite t o s) := by
  refine bothOperands_completes h1 h2 fun a n => ?_
  unfold memWrite
  split
  · exact completes_next _
  · exact advance_completes hl

theorem alterUnder_completes : Completes (alterUnder target t o s) := by
  refine someOperand_completes h1 h2 fun tn on => ?_
  cases target s tn on with
  | none => exact completes_next _
  | some pq =>
    cases decodeImage s.acc with
    | reject _ => exact completes_next _
    | ok n => exact advance_completes (hl.setCell pq.1 pq.2 n)

theorem condTransferUnder_completes (cond : CondPolicy) : Completes (condTransferUnder target cond t o s) := by
  refine someOperand_completes h1 h2 fun tn on => ?_
  split
  · exact transferTo_completes target tn on
  · exact advance_completes hl

theorem execHome_completes : Completes (execHome t o s) := by
  obtain ⟨b, l, hb, -⟩ := hl
  refine noOperands_completes h1 h2 ?_
  rw [hb]
  exact completes_next _

theorem execStepBy_completes : Completes (execStepBy t o s) := by
  obtain ⟨b, l, hb, hl⟩ := hl
  refine tensOperand_completes h1 h2 fun n => ?_
  simp only [hb, hl]
  split <;> exact completes_next _

end

/-- R106: with a defined `Last`, an instruction whose ones digit is not `*` or `V` answers a next state, whatever the
policies are. -/
theorem execUnder_completes (pol : Policies) {i : Instr} {s : State} (h1 : i.ones ≠ some .star)
    (h2 : i.ones ≠ some .vee) (hl : s.HasLast) : Completes (execUnder pol i s) := by
  cases i with
  | keyboard t o => exact noOperands_completes h1 h2 (completes_next _)
  | write t o => exact execWrite_completes h1 h2 hl
  | read t o => exact reading_completes h1 h2 fun _ => advance_completes hl
  | accToSec t o =>
    exact noOperands_completes h1 h2 (orAlarm_completes (narrow11 s.acc) fun _ => advance_completes hl)
  | print t o => exact noOperands_completes h1 h2 (advance_completes hl)
  | add t o =>
    exact reading_completes h1 h2 fun w => orAlarm_completes (add12 s.acc w) fun _ => advance_completes hl
  | sub t o =>
    exact reading_completes h1 h2 fun w => orAlarm_completes (sub12 s.acc w) fun _ => advance_completes hl
  | mul t o =>
    exact reading_completes h1 h2 fun w => orAlarm_completes (mulSplit s.acc w) fun _ => advance_completes hl
  | div t o =>
    exact reading_completes h1 h2 fun w => orAlarm_completes (divRem s.acc w) fun _ => advance_completes hl
  | alter t o => exact alterUnder_completes pol.target h1 h2 hl
  | transfer t o => exact someOperand_completes h1 h2 (transferTo_completes pol.target)
  | condTransfer t o => exact condTransferUnder_completes pol.target h1 h2 hl pol.cond
  | home t o => exact execHome_completes h1 h2 hl
  | stepBy t o => exact execStepBy_completes h1 h2 hl

/-- R103: the refusal comes first in every arm, so it is what each computes to at `*` and at `V`. -/
theorem execUnder_refused (pol : Policies) {i : Instr} (s : State) (h : i.ones = some .star ∨ i.ones = some .vee) :
    execUnder pol i s = .refused .unsupported := by
  cases i <;> rcases h with h | h <;> cases h <;> rfl

theorem execUnder_default (i : Instr) (s : State) : execUnder defaultPolicies i s = exec i s := by
  cases i <;> rfl

theorem stepUnder_default (s : State) : stepUnder defaultPolicies s = step s := by
  have hrun : execUnder defaultPolicies = exec := funext fun i => funext (execUnder_default i)
  unfold stepUnder step
  rw [hrun]

/-! ### The step -/

/-- R102, R103: a step under any policies never faults, and is refused exactly at a fetched `*` or `V`. -/
theorem stepUnder_stops (pol : Policies) (s : State) :
    (∀ f, stepUnder pol s ≠ .fault f) ∧ ∀ r, stepUnder pol s = .refused r ↔
      r = .unsupported ∧ s.status = .cont ∧ ∃ i, fetch s = .ok i ∧ (i.ones = some .star ∨ i.ones = some .vee) := by
  rcases stepUsing_cases (execUnder pol) s with ⟨hs, h⟩ | ⟨hs, e, hf, h⟩ | ⟨hs, i, hf, h⟩
  · simp [stepUnder, h, hs]
  · simp [stepUnder, h, hf]
  · by_cases hv : i.ones = some .star ∨ i.ones = some .vee
    · have hstep : stepUnder pol s = .refused .unsupported := h.trans (execUnder_refused pol s hv)
      simp [hstep, hs, hf, hv, eq_comm (a := Refusal.unsupported)]
    · have hne := not_or.1 hv
      obtain ⟨u, hu⟩ := execUnder_completes pol hne.1 hne.2 (hasLast_of_fetch hf)
      simp [stepUnder, h, hf, hv, hu]

/-- Settles O10: the default policies' case of what stops a step. -/
theorem stepStopsOnlyAtStarOrVee : Obligations.StepStopsOnlyAtStarOrVee := fun s =>
  stepUnder_default s ▸ stepUnder_stops defaultPolicies s

/-- Settles O6: the refusal of every arm, then the step and its report. -/
theorem starAndVeeAreUnsupported : Obligations.StarAndVeeAreUnsupported := by
  intro s i hv
  have hexec : exec i s = .refused .unsupported := execUnder_default i s ▸ execUnder_refused defaultPolicies s hv
  refine ⟨hexec, fun hs hf => ?_⟩
  have hstep : step s = .refused .unsupported := (stepUsing_run hs hf).trans hexec
  exact ⟨hstep, by simp [transact, stepTx, hs, hstep]⟩

end Sys2Proof.Machine
end

section
/-!
PROOF. The invariant of R42 under steps and transactions. It is split into its part over the data, `State.Sound`, which every
register, cursor, cell and memory write keeps, and its two clauses on the status, which follow from what the status of an
answer can be. With it O46 to O51, and O9.
-/

namespace Sys2Proof.Machine

open Sys2Proof.Claims

/-! ### The data part of the invariant -/

/-- R42: each element of the state but the status lies in its type. -/
structure State.Sound (s : State) : Prop where
  acc : InWord12 s.acc
  sec : InWord11 s.sec
  cp : 1 ≤ s.cp ∧ s.cp ≤ Config.numSlots
  cursors : ∀ p b, s.slot p = some b → b.cur < Config.capacity
  memForm : s.mem.wf
  memWords : ∀ c ∈ s.mem, InWord12 c.2
  printed : ∀ v, Event.print v ∈ s.out → InWord12 v

theorem State.Inv.sound {s : State} (h : s.Inv) : s.Sound :=
  ⟨h.acc, h.sec, h.cp, h.cursors, h.memForm, h.memWords, h.printed⟩

/-- R42: the data part, with the two clauses on the status. -/
theorem State.Sound.inv {s : State} (h : s.Sound) (hk : s.status = .keyboard → fetch s = .ok (.keyboard none none))
    (ha : ∀ e, s.status = .alarm e → e.listed = true) : s.Inv :=
  ⟨h.acc, h.sec, h.cp, h.cursors, h.memForm, h.memWords, h.printed, hk, ha⟩

/-- R42: in `Continue` the clauses on the status say nothing. -/
theorem State.Sound.inv_of_cont {s : State} (h : s.Sound) (hs : s.status = .cont) : s.Inv :=
  h.inv (by simp [hs]) (by simp [hs])

/-- R42: in `Halt` the clauses on the status say nothing. -/
theorem State.Sound.inv_of_halt {s : State} (h : s.Sound) (hs : s.status = .halt) : s.Inv :=
  h.inv (by simp [hs]) (by simp [hs])

/-- R35: every word a sound state reads is a primary word. -/
theorem State.Sound.word {s : State} (h : s.Sound) (t o : Nat) : InWord12 (s.word t o) :=
  Memory.read_inWord12 h.memWords _

theorem State.sound_reset : State.reset.Sound where
  acc := by decide
  sec := by decide
  cp := by decide
  cursors p b hb := by simp [State.reset_slot] at hb
  memForm := Memory.wf_reset
  memWords := by simp [State.reset]
  printed := by simp [State.reset]

section
variable {s : State} (h : s.Sound)
include h

theorem State.Sound.setStatus (st : Status) : (s.setStatus st).Sound :=
  ⟨h.acc, h.sec, h.cp, h.cursors, h.memForm, h.memWords, h.printed⟩

theorem State.Sound.setAcc {v : Int} (hv : InWord12 v) : (s.setAcc v).Sound :=
  ⟨hv, h.sec, h.cp, h.cursors, h.memForm, h.memWords, h.printed⟩

theorem State.Sound.setSec {v : Int} (hv : InWord11 v) : (s.setSec v).Sound :=
  ⟨h.acc, hv, h.cp, h.cursors, h.memForm, h.memWords, h.printed⟩

theorem State.Sound.setCp {p : Nat} (hp : 1 ≤ p ∧ p ≤ Config.numSlots) : (s.setCp p).Sound :=
  ⟨h.acc, h.sec, hp, h.cursors, h.memForm, h.memWords, h.printed⟩

theorem State.Sound.setCtl (r : CtlReg) (d : Digit) : (s.setCtl r d).Sound := by
  cases r <;> exact ⟨h.acc, h.sec, h.cp, h.cursors, h.memForm, h.memWords, h.printed⟩

theorem State.Sound.emitAcc : (s.emit (.print s.acc)).Sound := by
  refine ⟨h.acc, h.sec, h.cp, h.cursors, h.memForm, h.memWords, fun v hv => ?_⟩
  rcases List.mem_append.1 hv with hold | hnew
  · exact h.printed v hold
  · cases List.mem_singleton.1 hnew
    exact h.acc

/-- R56: a word of the grid may be replaced by a primary word. -/
theorem State.Sound.write {a n : Nat} {v : Int} (ha : a ≤ 9) (hn : n ≤ 9) (hv : InWord12 v) :
    (s.withMem (s.mem.write (dataAddr a n) v)).Sound := by
  refine ⟨h.acc, h.sec, h.cp, h.cursors, Memory.wf_write h.memForm (dataAddr_lt ha hn) v, fun c hc => ?_, h.printed⟩
  rcases Memory.mem_write hc with hold | ⟨rfl, -⟩
  · exact h.memWords c hold
  · exact hv

/-- R33: a slot may be emptied, or replaced by a pinboard whose cursor is a position. -/
theorem State.Sound.setSlot (p : Nat) {b : Option Pinboard} (hb : ∀ b', b = some b' → b'.cur < Config.capacity) :
    (s.setSlot p b).Sound := by
  refine ⟨h.acc, h.sec, h.cp, fun r b' hr => ?_, h.memForm, h.memWords, h.printed⟩
  rw [State.setSlot_slot] at hr
  split at hr
  · exact hb b' hr
  · exact h.cursors r b' hr

theorem State.Sound.setCursor (p : Nat) {q : Nat} (hq : q < Config.capacity) : (s.setCursor p q).Sound := by
  refine ⟨h.acc, h.sec, h.cp, fun r b' hr => ?_, h.memForm, h.memWords, h.printed⟩
  rw [State.setCursor_slot] at hr
  split at hr
  · obtain ⟨b, -, rfl⟩ := Option.map_eq_some_iff.1 hr
    exact hq
  · exact h.cursors r b' hr

theorem State.Sound.setCell (p q : Nat) (i : Instr) : (s.setCell p q i).Sound := by
  refine ⟨h.acc, h.sec, h.cp, fun r b' hr => ?_, h.memForm, h.memWords, h.printed⟩
  rw [State.setCell_slot] at hr
  split at hr
  · obtain ⟨b, hb, rfl⟩ := Option.map_eq_some_iff.1 hr
    exact h.cursors p b hb
  · exact h.cursors r b' hr

end

/-! ### What an instruction does to it -/

/-- R34: `Last` is a position. -/
theorem Pinboard.last?_lt {b : Pinboard} {l : Nat} (h : b.last? = some l) : l < Config.capacity := by
  obtain ⟨⟨i, hi⟩, -⟩ := Pinboard.last?_spec h
  exact Pinboard.cell_some_lt hi

theorem advance_sound {s u : State} (h : s.Sound) (hu : advance s = .next u) : u.Sound := by
  obtain ⟨b, l, -, hl, ⟨-, rfl⟩ | ⟨hc, rfl⟩⟩ := advance_cases hu
  · exact h.setStatus .halt
  · exact h.setCursor s.cp (Nat.lt_of_le_of_lt hc (Pinboard.last?_lt hl))

section
variable {pol : Policies} {i : Instr} {s u : State}

theorem Effect.sound (he : Effect pol i s u) (h : s.Sound) : u.Sound := by
  cases he with
  | print => exact h.emitAcc
  | copy _ hr => exact h.setSec hr
  | store _ ha hn => exact h.write ha hn h.acc
  | load _ hv =>
    refine h.setAcc ?_
    rcases hv with hv | ⟨a, n, rfl⟩
    · exact hv
    · exact h.word a n
  | split _ hv hw => exact (h.setAcc (hv h.acc)).setSec hw
  | rewire => exact h.setCell _ _ _
  | nothing => exact h

theorem Answers.sound (hans : Answers pol i s u) (hpol : pol.Lawful) (h : s.Sound) : u.Sound := by
  cases hans with
  | alarm => exact h.setStatus _
  | waits => exact h.setStatus _
  | advanced he ha => exact advance_sound (he.sound h) ha
  | transferred _ ht =>
    obtain ⟨hslot, hq⟩ := hpol _ _ _ _ _ ht
    obtain ⟨b, hb⟩ := Option.isSome_iff_exists.1 hslot
    exact (h.setCp (State.slot_bounds hb)).setCursor _ hq
  | homed => exact h.setCursor _ (by decide)
  | steppedPast => exact h.setStatus _
  | stepped _ _ _ hl hc => exact h.setCursor _ (Nat.lt_of_le_of_lt hc (Pinboard.last?_lt hl))

/-- R31, R107: what the status of an answer can be: an alarm taken, the wait of `K`, a halt, or the status before. -/
theorem Answers.status_cases (hans : Answers pol i s u) :
    (∃ e, e.listed = true ∧ u = raiseAlarm s e) ∨ (i = .keyboard none none ∧ u = s.setStatus .keyboard) ∨
      u.status = .halt ∨ u.status = s.status := by
  cases hans with
  | alarm he => exact .inl ⟨_, he, rfl⟩
  | waits hi => exact .inr (.inl ⟨hi, rfl⟩)
  | advanced he ha =>
    obtain ⟨b, l, -, -, ⟨-, rfl⟩ | ⟨-, rfl⟩⟩ := advance_cases ha
    · exact .inr (.inr (.inl rfl))
    · exact .inr (.inr (.inr he.status))
  | steppedPast => exact .inr (.inr (.inl rfl))
  | transferred | homed | stepped => exact .inr (.inr (.inr rfl))

/-- R42: the answer of a fetched instruction meets the invariant. -/
theorem Answers.inv (hans : Answers pol i s u) (hpol : pol.Lawful) (h : s.Inv) (hs : s.status = .cont)
    (hf : fetch s = .ok i) : u.Inv := by
  have hu : u.Sound := hans.sound hpol h.sound
  rcases hans.status_cases with ⟨e, he, rfl⟩ | ⟨rfl, rfl⟩ | hu' | hu'
  · exact hu.inv (by simp) (by simp [he])
  · exact hu.inv (fun _ => hf) (by simp)
  · exact hu.inv_of_halt hu'
  · exact hu.inv_of_cont (hu'.trans hs)

/-- R108, R204: an answer in an alarm the state did not carry is that alarm and nothing else. -/
theorem Answers.precise {e : Err} (hans : Answers pol i s u) (hu : u.status = .alarm e) (hs : s.status ≠ .alarm e) :
    u = { s with status := .alarm e } ∧ e.listed = true := by
  rcases hans.status_cases with ⟨e', he', rfl⟩ | ⟨-, rfl⟩ | hu' | hu'
  · cases hu
    exact ⟨rfl, he'⟩
  · cases hu
  · cases hu'.symm.trans hu
  · exact absurd (hu'.symm.trans hu) hs

end

/-! ### Steps -/

/-- R101, R102: an error of the fetch keeps the invariant. -/
theorem State.Inv.raiseFetchError {s : State} {e : Err} (h : s.Inv) (hf : fetch s = .error e) :
    (raiseAlarm s e).Inv := by
  have he : e.listed = true := by rcases fetch_error hf with rfl | rfl <;> rfl
  exact (h.sound.setStatus _).inv (by simp) (by simp [he])

/-- R42, R108: a step under lawful policies keeps the invariant and is precise. -/
theorem stepUnder_keeps {pol : Policies} (hpol : pol.Lawful) {s u : State} (h : s.Inv) (hu : stepUnder pol s = .next u) :
    u.Inv ∧ ∀ e, u.status = .alarm e → s.status ≠ .alarm e → u = { s with status := .alarm e } := by
  rcases stepUsing_cases (execUnder pol) s with ⟨-, hstep⟩ | ⟨-, e, hf, hstep⟩ | ⟨hs, i, hf, hstep⟩
  · cases hu.symm.trans hstep
    exact ⟨h, fun e he hne => absurd he hne⟩
  · cases hu.symm.trans hstep
    exact ⟨h.raiseFetchError hf, fun e' he' _ => by cases he'; rfl⟩
  · have hans : Answers pol i s u := execUnder_answers (hstep.symm.trans hu)
    exact ⟨hans.inv hpol h hs hf, fun e he hne => (hans.precise he hne).1⟩

theorem lawful_default : defaultPolicies.Lawful := by
  intro s tn on p q ht
  obtain ⟨b, hb, -, -, hq⟩ := resolveTarget_some ht
  exact ⟨by simp [hb], hq⟩

theorem step_inv {s u : State} (h : s.Inv) (hu : step s = .next u) : u.Inv :=
  (stepUnder_keeps lawful_default h ((stepUnder_default s).trans hu)).1

/-- Settles O47: the default policies are lawful. -/
theorem everyStepKeepsTheInvariant : Obligations.EveryStepKeepsTheInvariant := fun _ _ => step_inv

/-- Settles O51: no fault from what stops a step, the rest from what a step keeps. -/
theorem everyLawfulPolicyKeepsTheInvariant : Obligations.EveryLawfulPolicyKeepsTheInvariant :=
  fun pol hpol s h => ⟨(stepUnder_stops pol s).1, fun _ => stepUnder_keeps hpol h⟩

/-- Settles O50: the dispatch agrees arm by arm, and so do the steps. -/
theorem defaultPoliciesGiveTheMachine : Obligations.DefaultPoliciesGiveTheMachine :=
  ⟨lawful_default, execUnder_default, stepUnder_default⟩

/-- Settles O9: the precision of every answer. -/
theorem executionErrorsArePrecise : Obligations.ExecutionErrorsArePrecise :=
  fun _ _ _ _ h => (exec_answers h).precise

/-! ### Transactions -/

/-- R221, R222: what holds of the state as it was, and in `Continue` of the accepted one, holds after a load or preload. -/
theorem inContinue_of {s : State} {k : State × Report} {P : State × Report → Prop} (hs : P (s, .notAccepted))
    (hk : s.status = .cont → P k) : P (inContinue s k) := by
  unfold inContinue
  split
  next h => exact hk h
  all_goals exact hs

section
variable {s : State} (h : s.Inv)
include h

theorem loadPinboard_inv (p : Nat) (cells : List (Option Instr)) : (loadPinboard p cells s).1.Inv := by
  refine inContinue_of (P := fun x => x.1.Inv) h fun hs => ?_
  split
  · exact (h.sound.setSlot p (by rintro b ⟨⟩; exact Nat.zero_lt_succ _)).inv_of_cont hs
  · exact h

theorem removePinboard_inv (p : Nat) : (removePinboard p s).1.Inv := by
  refine inContinue_of (P := fun x => x.1.Inv) h fun hs => ?_
  split
  · exact (h.sound.setSlot p (by rintro b ⟨⟩)).inv_of_cont hs
  · exact h

theorem setAccTx_inv (v : Int) : (setAccTx v s).1.Inv := by
  refine inContinue_of (P := fun x => x.1.Inv) h fun hs => ?_
  split
  next hv => exact (h.sound.setAcc hv).inv_of_cont hs
  · exact h

theorem setSecTx_inv (v : Int) : (setSecTx v s).1.Inv := by
  refine inContinue_of (P := fun x => x.1.Inv) h fun hs => ?_
  split
  next hv => exact (h.sound.setSec hv).inv_of_cont hs
  · exact h

theorem setCtlTx_inv (r : CtlReg) (d : Nat) : (setCtlTx r d s).1.Inv := by
  refine inContinue_of (P := fun x => x.1.Inv) h fun hs => ?_
  split
  · exact (h.sound.setCtl r _).inv_of_cont ((State.setCtl_status s r _).trans hs)
  · exact h

theorem setMemTx_inv (t o : Nat) (v : Int) : (setMemTx t o v s).1.Inv := by
  refine inContinue_of (P := fun x => x.1.Inv) h fun hs => ?_
  split
  next hto =>
    split
    next hv => exact (h.sound.write (Nat.le_of_lt_succ hto.1) (Nat.le_of_lt_succ hto.2) hv).inv_of_cont hs
    · exact h
  · exact h

theorem selectPinboard_inv (p : Nat) : (selectPinboard p s).1.Inv := by
  refine inContinue_of (P := fun x => x.1.Inv) h fun hs => ?_
  split
  next hp => exact (h.sound.setCp hp).inv_of_cont hs
  · exact h

theorem stepTx_inv : (stepTx s).1.Inv := by
  unfold stepTx
  split
  any_goals exact h
  split
  next u hu => exact step_inv h hu
  all_goals exact h

/-- R121: the completion of `K` continues or halts. -/
theorem supplyInput_inv (v : Int) : (supplyInput v s).1.Inv := by
  unfold supplyInput
  split
  any_goals exact h
  split
  next hv =>
    split
    next u hu =>
      have hsound : u.Sound := advance_sound ((h.sound.setAcc hv).setStatus .cont) hu
      obtain ⟨b, l, -, -, ⟨-, rfl⟩ | ⟨-, rfl⟩⟩ := advance_cases hu
      · exact hsound.inv_of_halt rfl
      · exact hsound.inv_of_cont rfl
    all_goals exact h
  · exact h

end

/-- Settles O46: the data of the reset state is sound and its status is `Continue`. -/
theorem resetMeetsTheInvariant : Obligations.ResetMeetsTheInvariant := State.sound_reset.inv_of_cont rfl

/-- Settles O48: transaction by transaction. -/
theorem everyTransactionKeepsTheInvariant : Obligations.EveryTransactionKeepsTheInvariant := by
  intro tx s h
  cases tx with
  | reset => exact resetMeetsTheInvariant
  | loadPinboard p cells => exact loadPinboard_inv h p cells
  | removePinboard p => exact removePinboard_inv h p
  | setAcc v => exact setAccTx_inv h v
  | setSec v => exact setSecTx_inv h v
  | setCtl r d => exact setCtlTx_inv h r d
  | setMem t o v => exact setMemTx_inv h t o v
  | selectPinboard p => exact selectPinboard_inv h p
  | step => exact stepTx_inv h
  | supplyInput v => exact supplyInput_inv h v
  | readOut => exact h

/-! ### No fault of the model -/

section
variable {s : State} (f : Fault)

/-- No load and no preload reports a fault. -/
theorem inContinue_not_stuck {k : State × Report} (hk : k.2 ≠ .stuck f) : (inContinue s k).2 ≠ .stuck f :=
  inContinue_of (P := fun x => x.2 ≠ .stuck f) (by simp) fun _ => hk

theorem stepTx_not_stuck : (stepTx s).2 ≠ .stuck f := by
  have hnofault : ∀ f, step s ≠ .fault f := (stepStopsOnlyAtStarOrVee s).1
  unfold stepTx
  split
  any_goals simp
  split
  next u _ => cases u.status <;> simp
  · simp
  next f' hf => exact absurd hf (hnofault f')

/-- R121, R42: while `K` waits pc names it, so `Last` is defined and the advance completes. -/
theorem supplyInput_not_stuck (h : s.Inv) (v : Int) : (supplyInput v s).2 ≠ .stuck f := by
  unfold supplyInput
  split
  any_goals simp
  next hs =>
    have hlast : ((s.setAcc v).setStatus .cont).HasLast := hasLast_of_fetch (h.pendingKey hs)
    obtain ⟨u, hu⟩ := advance_completes hlast
    rw [hu]
    split <;> simp

theorem transact_not_stuck (h : s.Inv) (tx : Transaction) : (transact tx s).2 ≠ .stuck f := by
  cases tx with
  | reset | readOut => exact Report.noConfusion
  | step => exact stepTx_not_stuck f
  | supplyInput v => exact supplyInput_not_stuck f h v
  | setMem t o v =>
    refine inContinue_not_stuck f ?_
    split
    · split <;> simp
    · simp
  | _ => exact inContinue_not_stuck f (by split <;> simp)

end

/-- R246: the invariant holds along every run from a state that meets it. -/
theorem runTransactions_inv (txs : List Transaction) {s : State} (h : s.Inv) : (runTransactions txs s).Inv := by
  induction txs generalizing s with
  | nil => exact h
  | cons tx rest ih => exact ih (everyTransactionKeepsTheInvariant tx s h)

/-- Settles O49: the invariant holds at reset and along every run, and where it holds no transaction is stuck. -/
theorem reachableStatesAreNeverStuck : Obligations.ReachableStatesAreNeverStuck := by
  refine ⟨fun s h tx f => transact_not_stuck f h tx, ?_⟩
  rintro s ⟨txs, rfl⟩
  have h : (runTransactions txs State.reset).Inv := runTransactions_inv txs resetMeetsTheInvariant
  exact ⟨h, fun tx f => transact_not_stuck f h tx⟩

end Sys2Proof.Machine
end

section
/-!
PROOF. The numeric encodings of an instruction (R71 to R76): the code tables invert in both directions, so the three codes,
the image and the cell word each name one instruction. With it O57, O58 and O59.
-/

namespace Sys2Proof

/-! ### The code tables -/

/-- R71: the index that names an opcode is its own. -/
theorem eq_opcodeIndex_of_opcodeOfIndex {a : Nat} {op : Opcode} (h : opcodeOfIndex a = some op) :
    a = opcodeIndex op := by
  unfold opcodeOfIndex at h
  split at h <;> cases h <;> rfl

/-- R72: the code that names a tens operand is its own. -/
theorem eq_tensCode_of_tensOfCode {c : Nat} {t : Option TensDigit} (h : tensOfCode c = some t) : c = tensCode t := by
  unfold tensOfCode at h
  split at h
  · cases h; rfl
  · repeat' split at h
    all_goals cases h
    all_goals assumption

/-- R73: the code that names a ones operand is its own. -/
theorem eq_onesCode_of_onesOfCode {c : Nat} {o : Option OnesDigit} (h : onesOfCode c = some o) : c = onesCode o := by
  unfold onesOfCode at h
  split at h
  · cases h; rfl
  · repeat' split at h
    all_goals cases h
    all_goals assumption

/-- R76: three codes decode to an instruction exactly when they are its codes. -/
theorem decodeCodes_eq_ok {a b c : Nat} {i : Instr} :
    decodeCodes a b c = .ok i ↔ a = opcodeIndex i.op ∧ b = tensCode i.tens ∧ c = onesCode i.ones := by
  constructor
  · intro h
    obtain ⟨ha, hb, hc⟩ := decodeCodes_ok h
    exact ⟨eq_opcodeIndex_of_opcodeOfIndex ha, eq_tensCode_of_tensOfCode hb, eq_onesCode_of_onesOfCode hc⟩
  · rintro ⟨rfl, rfl, rfl⟩
    exact decodeCodes_codes i

/-! ### The image -/

/-- R74: an image lies in 0 to 139999. -/
theorem image_le (i : Instr) : image i ≤ 139999 := by
  have h1 := opcodeIndex_lt i.op
  have h2 := tensCode_lt i.tens
  have h3 := onesCode_lt i.ones
  unfold image
  omega

/-- R74: a number is an image exactly when its three pairs of digits are the codes. -/
theorem eq_image_iff {n : Nat} {i : Instr} :
    n = image i ↔ n / 10000 = opcodeIndex i.op ∧ n / 100 % 100 = tensCode i.tens ∧ n % 100 = onesCode i.ones := by
  have h2 := tensCode_lt i.tens
  have h3 := onesCode_lt i.ones
  unfold image
  omega

/-- R76: an integer decodes to an instruction exactly when it is its image. -/
theorem decodeImage_eq_ok {v : Int} {i : Instr} : decodeImage v = .ok i ↔ v = image i := by
  unfold decodeImage
  split
  next hv =>
    have hle := image_le i
    have hne : v ≠ image i := by omega
    simp [hne]
  next hv =>
    have hv' : v = image i ↔ v.toNat = image i := by omega
    rw [decodeCodes_eq_ok, hv', eq_image_iff]

/-- Settles O58: the decoder inverts the image, and the bound of an image. -/
theorem imagesAndInstructionsAgree : Obligations.ImagesAndInstructionsAgree :=
  ⟨fun _ _ => decodeImage_eq_ok, image_le⟩

/-! ### The cell word -/

/-- R75: a cell word whose wired bit is 1 and whose nibbles are decimal digits is that of the instruction with the codes they
spell. -/
theorem eq_encode_of_nibbles {w : BitVec 25} {i : Instr} (hw : w.toNat / 16777216 = 1)
    (h1 : 10 * cellNibble w 5 + cellNibble w 4 = opcodeIndex i.op)
    (h2 : 10 * cellNibble w 3 + cellNibble w 2 = tensCode i.tens)
    (h3 : 10 * cellNibble w 1 + cellNibble w 0 = onesCode i.ones)
    (h0 : cellNibble w 0 ≤ 9) (h2' : cellNibble w 2 ≤ 9) (h4' : cellNibble w 4 ≤ 9) : w = encode i := by
  obtain ⟨ew, e5, e4, e3, e2, e1, e0⟩ := encode_nibbles i
  have hcell := cell_of_nibbles w
  have hcell' := cell_of_nibbles (encode i)
  apply BitVec.eq_of_toNat_eq
  omega

/-- R75, R76: a cell word decodes to an instruction exactly when it is its cell word. -/
theorem decodeCell_eq_ok {w : BitVec 25} {i : Instr} : decodeCell w = .ok i ↔ w = encode i := by
  constructor
  · intro h
    unfold decodeCell at h
    split at h
    · cases h
    next hwired =>
      split at h
      · cases h
      next hdigits =>
        obtain ⟨h1, h2, h3⟩ := decodeCodes_eq_ok.1 h
        have hlt : w.toNat < 33554432 := w.isLt
        refine eq_encode_of_nibbles ?_ h1 h2 h3 ?_ ?_ ?_ <;> omega
  · rintro rfl
    obtain ⟨ew, e5, e4, e3, e2, e1, e0⟩ := encode_nibbles i
    have h1 := opcodeIndex_lt i.op
    have h2 := tensCode_lt i.tens
    have h3 := onesCode_lt i.ones
    unfold decodeCell
    rw [if_neg (by omega), if_neg (by omega), decodeCodes_eq_ok]
    omega

/-- Settles O57: both directions of what a cell word decodes to. -/
theorem cellWordsAndInstructionsAgree : Obligations.CellWordsAndInstructionsAgree :=
  ⟨fun _ => decodeCell_eq_ok.2 rfl, fun _ _ => decodeCell_eq_ok.1⟩

/-- Settles O59: the words are closed terms the decoder evaluates. -/
theorem sampleCellWordsDecode : Obligations.SampleCellWordsDecode := by
  unfold Obligations.SampleCellWordsDecode
  decide

end Sys2Proof
end

section
/-!
PROOF. The assembler text (R80 to R84): a line of tokens separated by one blank splits into them, and the token of each
part of an instruction reads back as it. With it O60.
-/

namespace Sys2Proof.Machine

/-! ### Splitting a line -/

/-- R80: a token as a line holds it: not empty, and without white space. -/
def IsToken (tok : Token) : Prop := tok ≠ [] ∧ tok.any isSpace = false

/-- R80: the characters of a token gather in the token being read. -/
theorem splitTokens_append {tok : Token} (h : tok.any isSpace = false) (cur rest : List Char) :
    splitTokens cur (tok ++ rest) = splitTokens (tok.reverse ++ cur) rest := by
  induction tok generalizing cur with
  | nil => rfl
  | cons c cs ih =>
    obtain ⟨hc, hcs⟩ := Bool.or_eq_false_iff.1 (List.any_cons.symm.trans h)
    simp [splitTokens, hc, ih hcs]

/-- R80: the last token of a line. -/
theorem splitTokens_token {tok : Token} (h : IsToken tok) : splitTokens [] tok = [tok] := by
  have hsplit := splitTokens_append h.2 [] []
  rw [List.append_nil, List.append_nil] at hsplit
  simp [hsplit, splitTokens, h.1]

/-- R80: a token and a blank in front of the rest of a line. -/
theorem splitTokens_token_blank {tok : Token} (h : IsToken tok) (rest : List Char) :
    splitTokens [] (tok ++ ' ' :: rest) = tok :: splitTokens [] rest := by
  have hblank : isSpace ' ' = true := by decide
  simp [splitTokens_append h.2, splitTokens, hblank, h.1]

/-! ### The tokens of an instruction -/

theorem opcodeToken_isToken (op : Opcode) : IsToken (opcodeToken op) := by
  cases op <;> exact ⟨by decide, by decide⟩

theorem opcodeOfToken_opcodeToken (op : Opcode) : opcodeOfToken (opcodeToken op) = some op := by
  cases op <;> rfl

/-- R80: the sixteen canonical numerals are tokens. -/
theorem numeralToken_isToken : ∀ n : Fin 16, IsToken (numeralToken n.val) := by
  unfold IsToken
  decide

theorem tensToken_isToken (t : TensDigit) : IsToken (tensToken t) := by
  cases t with
  | lit d => exact numeralToken_isToken (d.castLE (by decide))
  | regE | regX => exact ⟨by decide, by decide⟩

theorem onesToken_isToken (o : OnesDigit) : IsToken (onesToken o) := by
  cases o with
  | lit n => exact numeralToken_isToken n
  | regE | regF | regY | star | vee => exact ⟨by decide, by decide⟩

theorem tensOfToken_tensToken (t : TensDigit) : tensOfToken (tensToken t) = some t := by
  cases t with
  | lit d => revert d; decide
  | regE | regX => decide

theorem onesOfToken_onesToken (o : OnesDigit) : onesOfToken (onesToken o) = some o := by
  cases o with
  | lit n => revert n; decide
  | regE | regF | regY | star | vee => decide

/-! ### The canonical text -/

/-- R81, R83: the canonical text of each of the three shapes that have one parses back. -/
theorem parseLine_canonicalText {i : Instr} {line : List Char} (h : canonicalText i = some line) :
    parseLine line = .ok i := by
  have hop := opcodeToken_isToken i.op
  have hparts := i.ofParts_parts
  unfold canonicalText at h
  unfold parseLine
  split at h
  case h_1 ht ho =>
    cases h
    rw [ht, ho] at hparts
    rw [splitTokens_token hop]
    simp [parseTokens, opcodeOfToken_opcodeToken, hparts]
  case h_2 => cases h
  case h_3 t ht ho =>
    cases h
    rw [ht, ho] at hparts
    rw [splitTokens_token_blank hop, splitTokens_token (tensToken_isToken t)]
    simp [parseTokens, opcodeOfToken_opcodeToken, tensOfToken_tensToken, hparts]
  case h_4 t o ht ho =>
    cases h
    rw [ht, ho] at hparts
    rw [splitTokens_token_blank hop, splitTokens_token_blank (tensToken_isToken t),
      splitTokens_token (onesToken_isToken o)]
    simp [parseTokens, opcodeOfToken_opcodeToken, tensOfToken_tensToken, onesOfToken_onesToken, hparts]

/-- R83: what has no text. -/
theorem canonicalText_eq_none (i : Instr) : canonicalText i = none ↔ i.tens = none ∧ i.ones ≠ none := by
  unfold canonicalText
  cases i.tens <;> cases i.ones <;> simp

/-- Settles O60: the text parses back, and what has none. -/
theorem canonicalTextParsesBack : Obligations.CanonicalTextParsesBack :=
  ⟨fun _ _ => parseLine_canonicalText, canonicalText_eq_none⟩

end Sys2Proof.Machine
end

section
/-!
PROOF. The operand shapes (R77, R105): an uncovered combination raises MissingInstruction/Uncovered, and nothing else does.
With it O8.
-/

namespace Sys2Proof.Machine

open Sys2Proof.Claims

/-! ### What is uncovered -/

section
variable {t : Option TensDigit} {o : Option OnesDigit} {s : State} (h1 : o ≠ some .star) (h2 : o ≠ some .vee)
include h1 h2

theorem noOperands_uncovered (k : Result) (hw : Shape.none.admits t.isSome o.isSome = false) :
    noOperands t o s k = uncovered s :=
  withOperands_of (P := (· = uncovered s)) h1 h2 fun tn on ht ho =>
    match tn, on with
    | none, none => by simp [Shape.admits, ← ht, ← ho] at hw
    | none, some _ | some _, _ => rfl

theorem bothOperands_uncovered (k : Nat → Nat → Result) (hw : Shape.both.admits t.isSome o.isSome = false) :
    bothOperands t o s k = uncovered s :=
  withOperands_of (P := (· = uncovered s)) h1 h2 fun tn on ht ho =>
    match tn, on with
    | some _, some _ => by simp [Shape.admits, ← ht, ← ho] at hw
    | none, _ | some _, none => rfl

theorem someOperand_uncovered (k : Option Nat → Option Nat → Result)
    (hw : Shape.atLeastOne.admits t.isSome o.isSome = false) : someOperand t o s k = uncovered s :=
  withOperands_of (P := (· = uncovered s)) h1 h2 fun tn on ht ho =>
    match tn, on with
    | none, none => rfl
    | none, some _ | some _, _ => by simp [Shape.admits, ← ht, ← ho] at hw

theorem tensOperand_uncovered (k : Nat → Result) (hw : Shape.tensOnly.admits t.isSome o.isSome = false) :
    tensOperand t o s k = uncovered s :=
  withOperands_of (P := (· = uncovered s)) h1 h2 fun tn on ht ho =>
    match tn, on with
    | some _, none => by simp [Shape.admits, ← ht, ← ho] at hw
    | none, _ | some _, some _ => rfl

end

/-- R105: an instruction outside the shape table raises Uncovered, in every state. -/
theorem exec_uncovered {i : Instr} (s : State) (h1 : i.ones ≠ some .star) (h2 : i.ones ≠ some .vee)
    (hw : i.wellFormed = false) : exec i s = uncovered s := by
  cases i with
  | keyboard | accToSec | print | home => exact noOperands_uncovered h1 h2 _ hw
  | write | read | add | sub | mul | div => exact bothOperands_uncovered h1 h2 _ hw
  | transfer => exact someOperand_uncovered h1 h2 _ hw
  | alter =>
    unfold exec execAlter alterUnder
    exact someOperand_uncovered h1 h2 _ hw
  | condTransfer =>
    unfold exec execCondTransfer condTransferUnder
    exact someOperand_uncovered h1 h2 _ hw
  | stepBy => exact tensOperand_uncovered h1 h2 _ hw

/-! ### What is not -/

/-- An answer from `s` is not newly in the alarm of an uncovered shape. -/
def NotUncovered (s : State) (r : Result) : Prop :=
  ∀ u, r = .next u → u.status = .alarm Err.uncovered → s.status = .alarm Err.uncovered

section
variable {s : State}

theorem notUncovered_next {u : State} (h : u.status ≠ .alarm Err.uncovered) : NotUncovered s (.next u) := by
  rintro _ ⟨⟩ hu
  exact absurd hu h

theorem notUncovered_move {u : State} (h : u.status = s.status) : NotUncovered s (.next u) := by
  rintro _ ⟨⟩ hu
  exact h.symm.trans hu

theorem notUncovered_alarm {e : Err} (h : e ≠ Err.uncovered) : NotUncovered s (.next (raiseAlarm s e)) :=
  notUncovered_next fun hu => h (Status.alarm.inj hu)

theorem notUncovered_fault (f : Fault) : NotUncovered s (.fault f) := fun _ hu => (nomatch hu)

theorem orAlarm_notUncovered {α : Type} {r : Except Err α} {k : α → Result} (he : ∀ e, r = .error e → e ≠ Err.uncovered)
    (hk : ∀ a, NotUncovered s (k a)) : NotUncovered s (orAlarm s r k) := by
  cases r with
  | error e => exact notUncovered_alarm (he e rfl)
  | ok a => exact hk a

/-- R107: the advance halts or moves a cursor; it takes no alarm. -/
theorem advance_notUncovered {m : State} (h : m.status = s.status) : NotUncovered s (advance m) := by
  intro u hu
  obtain ⟨b, l, -, -, ⟨-, rfl⟩ | ⟨-, rfl⟩⟩ := advance_cases hu
  · exact fun halarm => (nomatch halarm)
  · exact h.symm.trans

theorem transferTo_notUncovered (target : TargetPolicy) (tn on : Option Nat) :
    NotUncovered s (transferTo target s tn on) := by
  unfold transferTo
  cases target s tn on with
  | none => exact notUncovered_alarm (by decide)
  | some pq => exact notUncovered_move rfl

variable {t : Option TensDigit} {o : Option OnesDigit} (h1 : o ≠ some .star) (h2 : o ≠ some .vee)
include h1 h2

theorem noOperands_notUncovered {k : Result} (hw : Shape.none.admits t.isSome o.isSome = true)
    (h : NotUncovered s k) : NotUncovered s (noOperands t o s k) :=
  withOperands_of h1 h2 fun tn on ht ho =>
    match tn, on with
    | none, none => h
    | none, some _ | some _, _ => by simp [Shape.admits, ← ht, ← ho] at hw

theorem bothOperands_notUncovered {k : Nat → Nat → Result} (hw : Shape.both.admits t.isSome o.isSome = true)
    (h : ∀ a n, NotUncovered s (k a n)) : NotUncovered s (bothOperands t o s k) :=
  withOperands_of h1 h2 fun tn on ht ho =>
    match tn, on with
    | some a, some n => h a n
    | none, _ | some _, none => by simp [Shape.admits, ← ht, ← ho] at hw

theorem someOperand_notUncovered {k : Option Nat → Option Nat → Result}
    (hw : Shape.atLeastOne.admits t.isSome o.isSome = true) (h : ∀ tn on, NotUncovered s (k tn on)) :
    NotUncovered s (someOperand t o s k) :=
  withOperands_of h1 h2 fun tn on ht ho =>
    match tn, on with
    | none, none => by simp [Shape.admits, ← ht, ← ho] at hw
    | none, some n => h none (some n)
    | some a, on => h (some a) on

theorem tensOperand_notUncovered {k : Nat → Result} (hw : Shape.tensOnly.admits t.isSome o.isSome = true)
    (h : ∀ n, NotUncovered s (k n)) : NotUncovered s (tensOperand t o s k) :=
  withOperands_of h1 h2 fun tn on ht ho =>
    match tn, on with
    | some n, none => h n
    | none, _ | some _, some _ => by simp [Shape.admits, ← ht, ← ho] at hw

/-- R51: the reading accessor has one error, and it is not that of the shape. -/
theorem reading_notUncovered {k : Int → Result} (hw : Shape.both.admits t.isSome o.isSome = true)
    (h : ∀ v, NotUncovered s (k v)) : NotUncovered s (bothOperands t o s fun a n => orAlarm s (memRead s a n) k) := by
  refine bothOperands_notUncovered h1 h2 hw fun a n => ?_
  unfold memRead
  split
  · exact notUncovered_alarm (by decide)
  · exact h _

theorem execWrite_notUncovered (hw : Shape.both.admits t.isSome o.isSome = true) : NotUncovered s (execWrite t o s) := by
  refine bothOperands_notUncovered h1 h2 hw fun a n => ?_
  unfold memWrite
  split
  · exact notUncovered_alarm (by decide)
  · exact advance_notUncovered rfl

theorem execAlter_notUncovered (hw : Shape.atLeastOne.admits t.isSome o.isSome = true) :
    NotUncovered s (execAlter t o s) := by
  unfold execAlter alterUnder
  refine someOperand_notUncovered h1 h2 hw fun tn on => ?_
  cases resolveTarget s tn on with
  | none => exact notUncovered_alarm (by decide)
  | some pq =>
    cases decodeImage s.acc with
    | reject _ => exact notUncovered_alarm (by decide)
    | ok n => exact advance_notUncovered rfl

theorem execCondTransfer_notUncovered (hw : Shape.atLeastOne.admits t.isSome o.isSome = true) :
    NotUncovered s (execCondTransfer t o s) := by
  unfold execCondTransfer condTransferUnder
  refine someOperand_notUncovered h1 h2 hw fun tn on => ?_
  split
  · exact transferTo_notUncovered resolveTarget tn on
  · exact advance_notUncovered rfl

theorem execHome_notUncovered (hw : Shape.none.admits t.isSome o.isSome = true) : NotUncovered s (execHome t o s) := by
  refine noOperands_notUncovered h1 h2 hw ?_
  split
  · exact notUncovered_fault _
  · exact notUncovered_move rfl

theorem execStepBy_notUncovered (hw : Shape.tensOnly.admits t.isSome o.isSome = true) :
    NotUncovered s (execStepBy t o s) := by
  refine tensOperand_notUncovered h1 h2 hw fun n => ?_
  split
  · exact notUncovered_fault _
  · split
    · exact notUncovered_fault _
    · split
      · exact notUncovered_next (by simp)
      · exact notUncovered_move rfl

end

theorem divRem_error_ne_uncovered {a b : Int} {e : Err} (h : divRem a b = .error e) : e ≠ Err.uncovered := by
  rcases divRem_error.1 h with ⟨-, rfl⟩ | ⟨-, -, rfl⟩ <;> decide

/-- R105: a covered instruction does not raise Uncovered: its other errors are the accessor's, the ALU's and the target's. -/
theorem exec_notUncovered {i : Instr} (s : State) (h1 : i.ones ≠ some .star) (h2 : i.ones ≠ some .vee)
    (hw : i.wellFormed = true) : NotUncovered s (exec i s) := by
  have hoverflow : Err.overflow ≠ Err.uncovered := by decide
  cases i with
  | keyboard => exact noOperands_notUncovered h1 h2 hw (notUncovered_next (by simp))
  | write => exact execWrite_notUncovered h1 h2 hw
  | read => exact reading_notUncovered h1 h2 hw fun _ => advance_notUncovered rfl
  | accToSec =>
    exact noOperands_notUncovered h1 h2 hw
      (orAlarm_notUncovered (fun _ he => (narrow11_error.1 he).2 ▸ hoverflow) fun _ => advance_notUncovered rfl)
  | print => exact noOperands_notUncovered h1 h2 hw (advance_notUncovered rfl)
  | add =>
    exact reading_notUncovered h1 h2 hw fun _ =>
      orAlarm_notUncovered (fun _ he => (add12_error.1 he).2 ▸ hoverflow) fun _ => advance_notUncovered rfl
  | sub =>
    exact reading_notUncovered h1 h2 hw fun _ =>
      orAlarm_notUncovered (fun _ he => (sub12_error.1 he).2 ▸ hoverflow) fun _ => advance_notUncovered rfl
  | mul =>
    exact reading_notUncovered h1 h2 hw fun _ =>
      orAlarm_notUncovered (fun _ he => (mulSplit_error.1 he).2 ▸ hoverflow) fun _ => advance_notUncovered rfl
  | div =>
    exact reading_notUncovered h1 h2 hw fun _ =>
      orAlarm_notUncovered (fun _ he => divRem_error_ne_uncovered he) fun _ => advance_notUncovered rfl
  | alter => exact execAlter_notUncovered h1 h2 hw
  | transfer => exact someOperand_notUncovered h1 h2 hw (transferTo_notUncovered resolveTarget)
  | condTransfer => exact execCondTransfer_notUncovered h1 h2 hw
  | home => exact execHome_notUncovered h1 h2 hw
  | stepBy => exact execStepBy_notUncovered h1 h2 hw

/-- Settles O8: the alarm where the shape is uncovered, and no such alarm where it is covered. -/
theorem uncoveredShapeRaisesMissingInstruction : Obligations.UncoveredShapeRaisesMissingInstruction :=
  fun s _ h1 h2 =>
    ⟨exec_uncovered s h1 h2, fun hw hs u hu halarm => hs (exec_notUncovered s h1 h2 hw u hu halarm)⟩

end Sys2Proof.Machine
end

section
/-!
PROOF. What every answer of an instruction leaves unchanged of the cursors and of what is loaded, beside the frames of the
other fields above. With it O38, O40, O41's first clause, O43 and O44.
-/

namespace Sys2Proof.Machine

open Sys2Proof.Claims

/-! ### Cursors and slots under the two writes of the program store -/

theorem curAt_setCursor (s : State) (p q r : Nat) :
    curAt (s.setCursor p q) r = if r = p then (curAt s p).map (fun _ => q) else curAt s r := by
  unfold curAt
  rw [State.setCursor_slot]
  split
  · cases s.slot p <;> rfl
  · rfl

/-- R27: every cursor but the one moved stays. -/
theorem curAt_setCursor_ne (s : State) {p r : Nat} (q : Nat) (h : r ≠ p) : curAt (s.setCursor p q) r = curAt s r := by
  rw [curAt_setCursor, if_neg h]

/-- R160: wiring a cell moves no cursor. -/
@[simp] theorem curAt_setCell (s : State) (p q r : Nat) (i : Instr) : curAt (s.setCell p q i) r = curAt s r := by
  unfold curAt
  rw [State.setCell_slot]
  split
  case isTrue h => subst h; cases s.slot r <;> rfl
  case isFalse => rfl

/-- R33: a slot is loaded exactly where it has a cursor. -/
theorem isSome_curAt (s : State) (p : Nat) : (curAt s p).isSome = (s.slot p).isSome := Option.isSome_map

/-- R27: moving a cursor loads and empties no slot. -/
theorem isSome_slot_setCursor (s : State) (p q r : Nat) : ((s.setCursor p q).slot r).isSome = (s.slot r).isSome := by
  rw [State.setCursor_slot]
  split
  case isTrue h => rw [h, Option.isSome_map]
  case isFalse => rfl

/-! ### Answers -/

section
variable {pol : Policies} {i : Instr} {s m u : State}

/-- No effect before the advance moves a cursor. -/
theorem Effect.cursorsKept (he : Effect pol i s m) : CursorsKept s m := by
  intro p
  cases he with
  | rewire => exact curAt_setCell s _ _ p _
  | _ => rfl

/-- R107: the advance moves no cursor but the current one. -/
theorem advance_curAt_ne (h : advance s = .next u) {p : Nat} (hp : p ≠ s.cp) : curAt u p = curAt s p := by
  obtain ⟨b, l, -, -, ⟨-, rfl⟩ | ⟨-, rfl⟩⟩ := advance_cases h
  · rfl
  · exact curAt_setCursor_ne s _ hp

/-- R27: no instruction moves the cursor of a pinboard that is not current after it. -/
theorem Answers.curAt_ne (h : Answers pol i s u) {p : Nat} (hp : p ≠ u.cp) : curAt u p = curAt s p := by
  cases h with
  | alarm | waits | steppedPast => rfl
  | advanced he ha =>
    obtain ⟨hcp, -⟩ := advance_frame ha
    exact (advance_curAt_ne ha (hcp ▸ hp)).trans (he.cursorsKept p)
  | transferred => exact curAt_setCursor_ne (s.setCp _) _ hp
  | homed | stepped => exact curAt_setCursor_ne s _ hp

/-- R52, R33: no instruction loads or empties a slot. -/
theorem Answers.loaded_kept (h : Answers pol i s u) (p : Nat) : (u.slot p).isSome = (s.slot p).isSome := by
  cases h with
  | alarm | waits | steppedPast => rfl
  | @advanced m _ he ha =>
    have hm : (m.slot p).isSome = (s.slot p).isSome := by
      rw [← isSome_curAt, ← isSome_curAt, he.cursorsKept p]
    obtain ⟨b, l, -, -, ⟨-, rfl⟩ | ⟨-, rfl⟩⟩ := advance_cases ha
    · exact hm
    · exact (isSome_slot_setCursor m _ _ p).trans hm
  | transferred => exact isSome_slot_setCursor (s.setCp _) _ _ p
  | homed | stepped => exact isSome_slot_setCursor s _ _ p

/-- R26: `CP` changes only by a transfer, to a slot the target policy names. -/
theorem Answers.cp_changed (h : Answers pol i s u) (hcp : u.cp ≠ s.cp) :
    (i.op = .transfer ∨ i.op = .condTransfer) ∧ ∃ tn on q, pol.target s tn on = some (u.cp, q) := by
  cases h with
  | transferred hi ht => exact ⟨hi, _, _, _, ht⟩
  | advanced he ha =>
    obtain ⟨hadv, -⟩ := advance_frame ha
    exact absurd (hadv.trans he.cp) hcp
  | _ => exact absurd rfl hcp

/-- R175: what an answer newly in `Halt` says. -/
theorem Answers.halted (h : Answers pol i s u) (hs : s.status ≠ .halt) (hu : u.status = .halt) :
    i.op ≠ .keyboard ∧ i.op ≠ .transfer ∧ i.op ≠ .home ∧ u.cp = s.cp ∧ CursorsKept s u ∧
    ∃ b l, u.slot u.cp = some b ∧ b.last? = some l ∧
      ((i.op ≠ .stepBy ∧ l < b.cur + 1) ∨ ∃ n, i.op = .stepBy ∧ resolveTens s i.tens = some n ∧ l < b.cur + n) := by
  cases h with
  | alarm | waits => cases hu
  | transferred | homed | stepped => exact absurd hu hs
  | advanced he ha =>
    obtain ⟨hkey, htransfer, hhome, hstepBy⟩ := he.op
    obtain ⟨b, l, hb, hl, ⟨hc, rfl⟩ | ⟨-, rfl⟩⟩ := advance_cases ha
    · exact ⟨hkey, htransfer, hhome, he.cp, he.cursorsKept, b, l, hb, hl, .inl ⟨hstepBy, Nat.lt_succ_of_le hc⟩⟩
    · exact absurd (he.status.symm.trans hu) hs
  | steppedPast hi ht hb hl hc =>
    exact ⟨by simp [hi], by simp [hi], by simp [hi], rfl, fun _ => rfl, _, _, hb, hl, .inr ⟨_, hi, ht, hc⟩⟩

end

/-- R34: `Last`, said position by position. -/
theorem isLast_of_last? {b : Pinboard} {l : Nat} (h : b.last? = some l) : IsLast b l := by
  obtain ⟨⟨i, hi⟩, habove⟩ := Pinboard.last?_spec h
  exact ⟨by simp [hi], fun q _ => habove q⟩

/-- R34: a position with the property of `Last` is `Last`. -/
theorem last?_of_isLast {b : Pinboard} {l : Nat} (h : IsLast b l) : b.last? = some l := by
  refine Pinboard.last?_eq h.1 fun q hlq => ?_
  cases hq : b.cell q with
  | none => rfl
  | some i => rw [← hq, h.2 q (Pinboard.cell_some_lt hq) hlq]

/-- Settles O38: `Halt` is reached past `Last`. -/
theorem haltMeansPastTheLastWiredPosition : Obligations.HaltMeansPastTheLastWiredPosition := by
  intro i s u h hs hu
  obtain ⟨hkey, htransfer, hhome, hcp, hcur, b, l, hb, hl, hpast⟩ := (exec_answers h).halted hs hu
  exact ⟨hkey, htransfer, hhome, hcp, hcur, b, l, hb, isLast_of_last? hl, hpast⟩

/-- Settles O40: the cells and the slots of every answer. -/
theorem onlyAlterChangesTheProgramStore : Obligations.OnlyAlterChangesTheProgramStore :=
  fun _ _ _ h => ⟨(exec_answers h).cellsKept, (exec_answers h).loaded_kept⟩

/-- Settles O43: a changed `CP` is a target, and every default target is loaded. -/
theorem onlyTransfersChangeTheCurrentPinboard : Obligations.OnlyTransfersChangeTheCurrentPinboard := by
  intro i s u h
  have hans := exec_answers h
  refine ⟨fun hcp => ?_, fun p => hans.curAt_ne⟩
  obtain ⟨hi, tn, on, q, ht⟩ := hans.cp_changed hcp
  exact ⟨hi, (hans.loaded_kept u.cp).trans (lawful_default s tn on u.cp q ht).1⟩

/-- R122: what an answer emits. -/
theorem Answers.out_cases {pol : Policies} {i : Instr} {s u : State} (h : Answers pol i s u) :
    u.out = s.out ∨ (i.op = .print ∧ u.out = s.out ++ [.print s.acc]) := by
  cases h with
  | advanced he ha =>
    obtain ⟨-, -, -, -, -, -, hout⟩ := advance_frame ha
    rw [hout]
    cases he with
    | print hi => exact .inr ⟨hi, rfl⟩
    | _ => exact .inl rfl
  | _ => exact .inl rfl

/-- Settles O44: what every answer emits. -/
theorem onlyPrintExtendsTheOutput : Obligations.OnlyPrintExtendsTheOutput := fun _ _ _ h => (exec_answers h).out_cases

end Sys2Proof.Machine
end

section
/-!
PROOF. The step and the transactions by status (R100 to R102, R109, R205, R210, R240): what a step does in `Continue` by the
cell at pc, what no transaction but `Reset` and the supplied input changes outside it, and the edges of the status. With it
O1, O3, O4, O5, O11, O41, O45, O52 and O53.
-/

namespace Sys2Proof.Machine

open Sys2Proof.Claims

/-! ### The step in Continue -/

/-- R101, R102: the wired cell at pc is run. -/
theorem step_wired {s : State} {b : Pinboard} {i : Instr} (hs : s.status = .cont) (hb : s.slot s.cp = some b)
    (hc : b.cell b.cur = some i) : step s = exec i s :=
  stepUsing_run hs (fetch_wired hb hc)

/-- R101: with the current slot empty the step is the alarm of a missing pinboard. -/
theorem step_empty {s : State} (hs : s.status = .cont) (hb : s.slot s.cp = none) :
    Alarms (step s) s Err.missingPinboard :=
  stepUsing_fetch_error hs (fetch_empty hb)

/-- R75: the word at pc decodes only where a wired cell stands, and then to that cell. -/
theorem fetch_of_decodeCell_pcWord {s : State} {i : Instr} (h : decodeCell (pcWord s) = .ok i) : fetch s = .ok i := by
  have hzero : decodeCell 0 ≠ .ok i := by
    rw [show decodeCell 0 = .reject .unwired from rfl]
    exact Decoded.noConfusion
  unfold pcWord at h
  cases hb : s.slot s.cp with
  | none => rw [hb] at h; exact absurd h hzero
  | some b =>
    rw [hb] at h
    cases hc : b.cell b.cur with
    | none => simp only [hc] at h; exact absurd h hzero
    | some j =>
      simp only [hc] at h
      have hij : j = i := Decoded.ok.inj ((decodeCell_eq_ok.2 rfl).symm.trans h)
      exact fetch_wired hb (hij ▸ hc)

/-- Settles O1: the decoded word is the fetched instruction. -/
theorem stepRunsTheDecodedInstruction : Obligations.StepRunsTheDecodedInstruction :=
  fun _ _ hs h => stepUsing_run hs (fetch_of_decodeCell_pcWord h)

/-- Settles O3: the fetch at an empty and at a loaded slot. -/
theorem emptySlotRaisesMissingPinboard : Obligations.EmptySlotRaisesMissingPinboard :=
  fun _ hs => ⟨step_empty hs, fun _ _ => step_wired hs⟩

/-- Settles O4: the fetch at an unwired and at a wired cell. -/
theorem unwiredCellRaisesMissingInstruction : Obligations.UnwiredCellRaisesMissingInstruction :=
  fun _ _ hs hb =>
    ⟨fun hc => stepUsing_fetch_error hs (fetch_unwired hb hc), fun _ hc => ⟨fetch_wired hb hc, step_wired hs hb hc⟩⟩

/-- R100: outside `Continue` a step answers the state it started from. -/
theorem step_idle {s : State} (h : s.status ≠ .cont) : step s = .next s := stepUsing_idle h

/-- R109: an answer in no alarm is reported as `Ok`. -/
theorem stepReport_ok {st : Status} (h : ∀ e, st ≠ .alarm e) : stepReport st = .ok := by
  cases st with
  | alarm e => exact absurd rfl (h e)
  | cont | keyboard | halt => rfl

/-- Settles O5: the four statuses. -/
theorem stepOutsideContinueChangesNothing : Obligations.StepOutsideContinueChangesNothing := by
  intro s
  refine ⟨fun hs => ⟨step_idle (by simp [hs]), ?_⟩, fun e hs => ⟨step_idle (by simp [hs]), ?_⟩,
    fun hs => ⟨step_idle (by simp [hs]), ?_⟩, fun hs u hu => ⟨fun e he => ?_, fun hne => ?_⟩⟩
  · simp [transact, stepTx, hs]
  · simp [transact, stepTx, hs]
  · simp [transact, stepTx, hs]
  · exact (stepTx_next hs hu).trans (by rw [he, stepReport_alarm])
  · exact (stepTx_next hs hu).trans (by rw [stepReport_ok hne])

/-! ### Transactions outside Continue -/

theorem inContinue_idle {s : State} (h : s.status ≠ .cont) (k : State × Report) : inContinue s k = (s, .notAccepted) := by
  unfold inContinue
  split
  next hs => exact absurd hs h
  all_goals rfl

theorem inContinue_cont {s : State} (h : s.status = .cont) (k : State × Report) : inContinue s k = k := by
  simp [inContinue, h]

/-- R100: the `Step` transaction outside `Continue`. -/
theorem stepTx_idle {s : State} (h : s.status ≠ .cont) : (stepTx s).1 = s := by
  unfold stepTx
  split
  any_goals rfl
  next hs => exact absurd hs h

/-- R121: a supply outside `Keyboard`. -/
theorem supplyInput_idle {s : State} (h : s.status ≠ .keyboard) (v : Int) :
    supplyInput v s = (s, .notAwaitingInput) := by
  unfold supplyInput
  split
  next hs => exact absurd hs h
  all_goals rfl

/-- R205, R210: outside `Continue` only `Reset`, and in `Keyboard` the supplied input, changes the state. -/
theorem transact_idle {s : State} {tx : Transaction} (h : s.status ≠ .cont) (hreset : tx ≠ .reset)
    (hsupply : s.status = .keyboard → ∀ v, tx ≠ .supplyInput v) : (transact tx s).1 = s := by
  cases tx with
  | reset => exact absurd rfl hreset
  | step => exact stepTx_idle h
  | supplyInput v =>
    have hs : s.status ≠ .keyboard := fun hs => hsupply hs v rfl
    exact congrArg Prod.fst (supplyInput_idle hs v)
  | readOut => rfl
  | _ => exact congrArg Prod.fst (inContinue_idle h _)

/-- Settles O52: in `Halt` and in an alarm there is neither `Continue` nor `Keyboard`. -/
theorem onlyResetLeavesHaltAndAlarm : Obligations.OnlyResetLeavesHaltAndAlarm := by
  intro s tx hs
  refine ⟨fun hreset => transact_idle ?_ hreset ?_, fun hreset => hreset ▸ rfl⟩
  · rcases hs with hs | ⟨e, hs⟩ <;> simp [hs]
  · rcases hs with hs | ⟨e, hs⟩ <;> simp [hs]

/-- R105: an opcode that takes no operand is uncovered with one. -/
theorem exec_uncovered_of_operand {i : Instr} (s : State) (hi : i.op.shape = .none) (h : i.tens ≠ none ∨ i.ones ≠ none)
    (h1 : i.ones ≠ some .star) (h2 : i.ones ≠ some .vee) : Alarms (exec i s) s Err.uncovered := by
  refine exec_uncovered s h1 h2 ?_
  rcases h with h | h
  · simp [Instr.wellFormed, hi, Shape.admits, Option.isSome_iff_ne_none.2 h]
  · simp [Instr.wellFormed, hi, Shape.admits, Option.isSome_iff_ne_none.2 h]

/-- Settles O11: the wait, what leaves it, and the operand `K` does not take. -/
theorem keyboardReadSuspends : Obligations.KeyboardReadSuspends :=
  ⟨fun _ => ⟨_, rfl, rfl, rfl, fun _ hreset hsupply => transact_idle Status.noConfusion hreset fun _ => hsupply⟩,
    fun s t o h h1 h2 => exec_uncovered_of_operand (i := .keyboard t o) s rfl h h1 h2, by decide⟩

/-! ### Reset -/

/-- Settles O45: the stated values, and the step at an empty slot. -/
theorem resetLeavesTheStatedValues : Obligations.ResetLeavesTheStatedValues := fun _ =>
  ⟨State.reset, rfl, rfl, rfl, State.reset_slot, rfl, fun _ _ => rfl, rfl, rfl, fun c => by cases c <;> rfl, rfl,
    step_empty rfl (State.reset_slot 1)⟩

/-! ### The control registers -/

/-- R23: no step changes a control register. -/
theorem step_ctlKept {s u : State} (h : step s = .next u) : CtlKept s u := by
  rcases stepUsing_cases exec s with ⟨-, hstep⟩ | ⟨-, e, -, hstep⟩ | ⟨-, i, -, hstep⟩
  · cases h.symm.trans hstep
    exact fun _ => rfl
  · cases h.symm.trans hstep
    exact raiseAlarm_ctl s e
  · exact (exec_answers (hstep.symm.trans h)).ctlKept

theorem stepTx_ctlKept (s : State) : CtlKept s (stepTx s).1 := by
  unfold stepTx
  split
  any_goals exact fun _ => rfl
  split
  next u hu => exact step_ctlKept hu
  all_goals exact fun _ => rfl

theorem supplyInput_ctlKept (v : Int) (s : State) : CtlKept s (supplyInput v s).1 := by
  unfold supplyInput
  split
  any_goals exact fun _ => rfl
  split
  · split
    next u hu =>
      obtain ⟨-, -, -, -, hctl, -⟩ := advance_frame hu
      intro r
      rw [hctl, State.setStatus_ctl, State.setAcc_ctl]
    all_goals exact fun _ => rfl
  · exact fun _ => rfl

/-- R221, R222: a load or preload keeps the control registers where the accepted one does. -/
theorem inContinue_ctlKept {s : State} {k : State × Report} (h : CtlKept s k.1) : CtlKept s (inContinue s k).1 :=
  inContinue_of (P := fun x => CtlKept s x.1) (fun _ => rfl) fun _ => h

/-- R23, R222: no transaction but `SetCtl` and `Reset` changes a control register. -/
theorem transact_ctlKept {tx : Transaction} (s : State) (hreset : tx ≠ .reset) (hset : ∀ r d, tx ≠ .setCtl r d) :
    CtlKept s (transact tx s).1 := by
  cases tx with
  | reset => exact absurd rfl hreset
  | setCtl r d => exact absurd rfl (hset r d)
  | step => exact stepTx_ctlKept s
  | supplyInput v => exact supplyInput_ctlKept v s
  | readOut => exact fun _ => rfl
  | loadPinboard | removePinboard | setAcc | setSec | selectPinboard =>
    exact inContinue_ctlKept fun _ => by split <;> simp
  | setMem t o v =>
    refine inContinue_ctlKept fun r => ?_
    split
    · split <;> cases r <;> rfl
    · rfl

/-- Settles O41: instructions and transactions. -/
theorem onlySetCtlWritesTheControlRegisters : Obligations.OnlySetCtlWritesTheControlRegisters :=
  ⟨fun _ _ _ h => (exec_answers h).ctlKept, fun _ s => transact_ctlKept s⟩

/-! ### The edges of the status -/

/-- R210: from `Continue` a step may lead to any status. -/
theorem stepEdge_of_cont (st : Status) : StepEdge .cont st := by
  cases st with
  | cont => exact .contCont
  | keyboard => exact .contKeyboard
  | halt => exact .contHalt
  | alarm e => exact .contAlarm e

theorem stepEdge_refl (st : Status) : StepEdge st st := by
  cases st with
  | cont => exact .contCont
  | keyboard => exact .keyboard
  | halt => exact .halt
  | alarm e => exact .alarm e

/-- R210: a step moves the status along an edge. -/
theorem step_stepEdge {s u : State} (h : step s = .next u) : StepEdge s.status u.status := by
  by_cases hs : s.status = .cont
  · rw [hs]
    exact stepEdge_of_cont u.status
  · cases h.symm.trans (step_idle hs)
    exact stepEdge_refl s.status

theorem stepTx_stepEdge (s : State) : StepEdge s.status (stepTx s).1.status := by
  by_cases hs : s.status = .cont
  · rw [hs]
    exact stepEdge_of_cont _
  · rw [stepTx_idle hs]
    exact stepEdge_refl s.status

/-- R121, R210, conflict C4: the supplied input continues or halts, or changes nothing. -/
theorem supplyInput_edge (v : Int) (s : State) :
    TransactEdge (.supplyInput v) s.status (supplyInput v s).1.status := by
  have hstays : ∀ st, TransactEdge (.supplyInput v) st st := fun st => .stays _ st (by simp)
  unfold supplyInput
  split
  any_goals exact hstays s.status
  next hs =>
    split
    · split
      next u hu =>
        rw [hs]
        obtain ⟨b, l, -, -, ⟨-, rfl⟩ | ⟨-, rfl⟩⟩ := advance_cases hu
        · exact .suppliedLast v
        · exact .supplied v
      all_goals exact hstays s.status
    · exact hstays s.status

/-- R221, R222: a load or preload keeps the status where the accepted one does. -/
theorem inContinue_status {s : State} {k : State × Report} (h : k.1.status = s.status) :
    (inContinue s k).1.status = s.status :=
  inContinue_of (P := fun x => x.1.status = s.status) rfl fun _ => h

/-- R221, R222, R224: loads, preloads and `ReadOut` keep the status. -/
theorem transact_status {tx : Transaction} (s : State) (hreset : tx ≠ .reset) (hstep : tx ≠ .step)
    (hsupply : ∀ v, tx ≠ .supplyInput v) : (transact tx s).1.status = s.status := by
  cases tx with
  | reset => exact absurd rfl hreset
  | step => exact absurd rfl hstep
  | supplyInput v => exact absurd rfl (hsupply v)
  | readOut => rfl
  | loadPinboard | removePinboard | setAcc | setSec | setCtl | selectPinboard =>
    exact inContinue_status (by split <;> simp)
  | setMem t o v =>
    refine inContinue_status ?_
    split
    · split <;> rfl
    · rfl

/-- Settles O53: the edges of a step and of every transaction. -/
theorem statusMovesOnlyAlongItsEdges : Obligations.StatusMovesOnlyAlongItsEdges := by
  refine ⟨fun _ _ => step_stepEdge, fun tx s => ?_⟩
  by_cases hreset : tx = .reset
  · subst hreset
    exact .byReset s.status
  by_cases hstep : tx = .step
  · subst hstep
    exact .byStep (stepTx_stepEdge s)
  by_cases hsupply : ∃ v, tx = .supplyInput v
  · obtain ⟨v, rfl⟩ := hsupply
    exact supplyInput_edge v s
  · rw [transact_status s hreset hstep (not_exists.1 hsupply)]
    exact .stays tx s.status hreset

end Sys2Proof.Machine
end

section
/-!
PROOF. Input, output and data movement where their checks hold (R121 to R132): the advance from a state that is ready, the
accessor inside and outside the grid, and each instruction as its own write followed by the advance. With it O12 to O19.
-/

namespace Sys2Proof.Machine

open Sys2Proof.Claims

/-! ### The advance from a ready state -/

/-- R107: from `s` to `u` nothing has changed but what the advance changes. -/
def OnlyAdvanced (s u : State) (cur l : Nat) : Prop :=
  u.acc = s.acc ∧ u.sec = s.sec ∧ u.mem = s.mem ∧ CtlKept s u ∧ CellsKept s u ∧ u.out = s.out ∧ Advanced s u cur l

theorem curAt_of_slot {s : State} {p : Nat} {b : Pinboard} (h : s.slot p = some b) : curAt s p = some b.cur := by
  simp [curAt, h]

theorem cellAt_of_slot {s : State} {p : Nat} {b : Pinboard} (h : s.slot p = some b) (q : Nat) :
    cellAt s p q = b.cell q := by
  simp [cellAt, h]

/-- R27: a cursor of a loaded slot is set. -/
theorem curAt_setCursor_of_slot {s : State} {p : Nat} {b : Pinboard} (h : s.slot p = some b) (q r : Nat) :
    curAt (s.setCursor p q) r = if r = p then some q else curAt s r := by
  rw [curAt_setCursor, curAt_of_slot h]
  rfl

/-- R107: with a last wired position the advance answers, below it by one more, at it by a halt. -/
theorem advance_of_ready {s : State} {b : Pinboard} {l : Nat} (h : Ready s b l) :
    ∃ u, advance s = .next u ∧ OnlyAdvanced s u b.cur l := by
  obtain ⟨hb, hlast⟩ := h
  have hl : b.last? = some l := last?_of_isLast hlast
  obtain ⟨u, hu⟩ := advance_completes ⟨b, l, hb, hl⟩
  obtain ⟨hcp, hmem, hacc, hsec, hctl, hcells, hout⟩ := advance_frame hu
  refine ⟨u, hu, hacc, hsec, hmem, hctl, hcells, hout, hcp, fun hlt => ?_, fun hle => ?_⟩
  · cases hu.symm.trans (advance_below hb hl hlt)
    exact ⟨rfl, curAt_setCursor_of_slot hb _⟩
  · cases hu.symm.trans (advance_at_last hb hl hle)
    exact ⟨rfl, fun _ => rfl⟩

theorem memKept_of_eq {s u : State} (h : u.mem = s.mem) : MemKept s u := fun a => by rw [h]

/-! ### Input and output, data movement -/

/-- Settles O12: the advance after the emission. -/
theorem printEmitsTheAccumulator : Obligations.PrintEmitsTheAccumulator := by
  intro s b l h
  obtain ⟨u, hu, hacc, hsec, hmem, hctl, hcells, hout, hadv⟩ :=
    advance_of_ready (s := s.emit (.print s.acc)) h
  exact ⟨u, hu, hout, hacc, hsec, memKept_of_eq hmem, hctl, hcells, hadv⟩

/-- Settles O13: outside `Keyboard`, with a word out of range, and the advance after the word is in `ACC`. -/
theorem supplyInputCompletesTheKeyboardRead : Obligations.SupplyInputCompletesTheKeyboardRead := by
  intro s v
  refine ⟨fun hs => supplyInput_idle hs v, fun hs hv => ?_, fun b l hs hv h => ?_⟩
  · simp only [transact, supplyInput, hs, if_neg hv]
  · obtain ⟨u, hu, hacc, hsec, hmem, hctl, hcells, hout, hadv⟩ :=
      advance_of_ready (s := (s.setAcc v).setStatus .cont) h
    refine ⟨u, ?_, hacc, hsec, memKept_of_eq hmem, hctl, hcells, hout, hadv⟩
    simp only [transact, supplyInput, hs, if_pos hv, hu]

/-- R130: `W` is the write of its one word, then the advance. -/
theorem exec_write_of_grid {s : State} {t : Option TensDigit} {o : Option OnesDigit} {a n : Nat}
    (hb : Both s t o a n) (hn : n ≤ 9) :
    exec (.write t o) s = advance (s.withMem (s.mem.write (dataAddr a n) s.acc)) := by
  show execWrite t o s = _
  unfold execWrite
  rw [bothOperands_present _ hb.1 hb.2, memWrite_grid s s.acc (resolveTens_le hb.1) hn]
  rfl

/-- Settles O14: the word written and the others, then the advance. -/
theorem writeStoresTheAccumulator : Obligations.WriteStoresTheAccumulator := by
  intro s t o a n b l h hm hb hn
  obtain ⟨u, hu, hacc, hsec, hmem, hctl, hcells, hout, hadv⟩ :=
    advance_of_ready (s := s.withMem (s.mem.write (dataAddr a n) s.acc)) h
  refine ⟨u, (exec_write_of_grid hb hn).trans hu, ?_, fun c hc => ?_, hacc, hsec, hctl, hcells, hout, hadv⟩
  · show u.mem.read _ = _
    rw [hmem]
    exact Memory.read_write_same hm (dataAddr a n) s.acc
  · rw [hmem]
    exact Memory.read_write_other s.mem (dataAddr a n) c s.acc hc

/-- R51: what the instructions that read one word do where the address is in the grid. -/
theorem reading_present {s : State} {t : Option TensDigit} {o : Option OnesDigit} {a n : Nat} (k : Int → Result)
    (hb : Both s t o a n) (hn : n ≤ 9) :
    (bothOperands t o s fun a n => orAlarm s (memRead s a n) k) = k (s.word a n) := by
  rw [bothOperands_present _ hb.1 hb.2, memRead_grid s (resolveTens_le hb.1) hn, orAlarm_ok]

theorem exec_read_of_grid {s : State} {t : Option TensDigit} {o : Option OnesDigit} {a n : Nat}
    (hb : Both s t o a n) (hn : n ≤ 9) : exec (.read t o) s = advance (s.setAcc (s.word a n)) :=
  reading_present _ hb hn

/-- R131, R147, R148: the frame of an instruction that writes `ACC` and advances. -/
theorem advance_setAcc_of_ready {s : State} {b : Pinboard} {l : Nat} (h : Ready s b l) (v : Int) :
    ∃ u, advance (s.setAcc v) = .next u ∧ u.acc = v ∧ u.sec = s.sec ∧ MemKept s u ∧ CtlKept s u ∧ CellsKept s u ∧
      u.out = s.out ∧ Advanced s u b.cur l := by
  obtain ⟨u, hu, hacc, hsec, hmem, hctl, hcells, hout, hadv⟩ := advance_of_ready (s := s.setAcc v) h
  exact ⟨u, hu, hacc, hsec, memKept_of_eq hmem, hctl, hcells, hout, hadv⟩

/-- Settles O15: the advance after the word is in `ACC`. -/
theorem readLoadsTheAddressedWord : Obligations.ReadLoadsTheAddressedWord := by
  intro s t o a n b l h hb hn
  rw [exec_read_of_grid hb hn]
  exact advance_setAcc_of_ready h (s.word a n)

/-- D1: the eleven-digit range as a bound by a power of ten. -/
theorem inWord11_iff_natAbs_lt (v : Int) : InWord11 v ↔ v.natAbs < 10 ^ 11 :=
  (inWord11_iff_natAbs_le v).trans (Nat.lt_succ_iff (n := 99999999999)).symm

/-- D1: the twelve-digit range as a bound by a power of ten. -/
theorem inWord12_iff_natAbs_lt (v : Int) : InWord12 v ↔ v.natAbs < 10 ^ 12 :=
  (inWord12_iff_natAbs_le v).trans (Nat.lt_succ_iff (n := 999999999999)).symm

theorem not_inWord11_of_le {v : Int} (h : 10 ^ 11 ≤ v.natAbs) : ¬ InWord11 v :=
  fun hv => Nat.not_le.2 ((inWord11_iff_natAbs_lt v).1 hv) h

theorem not_inWord12_of_le {v : Int} (h : 10 ^ 12 ≤ v.natAbs) : ¬ InWord12 v :=
  fun hv => Nat.not_le.2 ((inWord12_iff_natAbs_lt v).1 hv) h

/-- R132: `B` narrows `ACC`. -/
theorem exec_accToSec (s : State) :
    exec (.accToSec none none) s = orAlarm s (narrow11 s.acc) fun v => advance (s.setSec v) := rfl

/-- Settles O16: the narrowing holds, then the advance. -/
theorem copyToSecondaryKeepsTheAccumulator : Obligations.CopyToSecondaryKeepsTheAccumulator := by
  intro s b l h hacc
  obtain ⟨u, hu, hacc', hsec, hmem, hctl, hcells, hout, hadv⟩ := advance_of_ready (s := s.setSec s.acc) h
  refine ⟨u, ?_, hsec, hacc', memKept_of_eq hmem, hctl, hcells, hout, hadv⟩
  rw [exec_accToSec, narrow11_ok.2 ⟨(inWord11_iff_natAbs_lt s.acc).2 hacc, rfl⟩]
  exact hu

/-! ### The accessor -/

/-- Settles O18: outside the grid, the read, and the write with the other words of the grid. -/
theorem accessorChecksBothDigits : Obligations.AccessorChecksBothDigits := by
  intro s t o v
  refine ⟨fun h => ⟨memRead_outside s h, memWrite_outside s v h⟩, fun ht ho => ⟨memRead_grid s ht ho, fun hm => ?_⟩⟩
  refine ⟨_, memWrite_grid s v ht ho, Memory.read_write_same hm _ v, fun t' o' _ ho' hne => ?_, rfl⟩
  refine Memory.read_write_other s.mem _ _ v fun haddr => ?_
  obtain ⟨rfl, rfl⟩ := dataAddr_inj ho' ho haddr
  exact hne.elim (· rfl) (· rfl)

/-- R51: what the instructions that read one word do where the address is outside the grid. -/
theorem reading_outside {s : State} {t : Option TensDigit} {o : Option OnesDigit} {a n : Nat} (k : Int → Result)
    (hb : Both s t o a n) (hn : 9 < n) :
    (bothOperands t o s fun a n => orAlarm s (memRead s a n) k) = .next (raiseAlarm s Err.cell) := by
  rw [bothOperands_present _ hb.1 hb.2, memRead_outside s (.inr hn), orAlarm_error]

theorem execWrite_outside {s : State} {t : Option TensDigit} {o : Option OnesDigit} {a n : Nat}
    (hb : Both s t o a n) (hn : 9 < n) : execWrite t o s = .next (raiseAlarm s Err.cell) := by
  unfold execWrite
  rw [bothOperands_present _ hb.1 hb.2, memWrite_outside s s.acc (.inr hn), orAlarm_error]

/-- Settles O19: the accessor fails before anything else is looked at. -/
theorem memoryDigitAboveNineRaisesInvalidMemory : Obligations.MemoryDigitAboveNineRaisesInvalidMemory := by
  intro s i a n hi hb hn
  cases i with
  | write => exact execWrite_outside hb hn
  | read | add | sub | mul | div => exact reading_outside _ hb hn
  | _ => exact absurd hi (by simp [Instr.op])

/-! ### Write, then read -/

/-- R107, R34: the advance leaves `Last` defined. -/
theorem advance_hasLast {s u : State} (hu : advance s = .next u) : u.HasLast := by
  obtain ⟨b, l, hb, hl, ⟨-, rfl⟩ | ⟨-, rfl⟩⟩ := advance_cases hu
  · exact ⟨b, l, hb, hl⟩
  · exact ⟨b.withCur (b.cur + 1), l, by rw [State.setCursor_slot, State.setCursor_cp, if_pos rfl, hb]; rfl, hl⟩

/-- R104: resolution looks at the control registers alone. -/
theorem both_of_ctlKept {s u : State} {t : Option TensDigit} {o : Option OnesDigit} {a n : Nat} (hb : Both s t o a n)
    (h : CtlKept s u) : Both u t o a n := by
  obtain ⟨ht, ho⟩ := hb
  have hE : u.ctlE = s.ctlE := h .e
  have hF : u.ctlF = s.ctlF := h .f
  have hX : u.ctlX = s.ctlX := h .x
  have hY : u.ctlY = s.ctlY := h .y
  constructor
  · rw [← ht]
    cases t with
    | none => rfl
    | some d => cases d <;> simp [resolveTens, hE, hX]
  · rw [← ho]
    cases o with
    | none => rfl
    | some d => cases d <;> simp [resolveOnes, hE, hF, hY]

/-- Settles O17: the written word stands where the read looks, and `Last` is still defined there. -/
theorem writeThenReadGivesTheWordBack : Obligations.WriteThenReadGivesTheWordBack := by
  intro s t o a n b l v h hm hb hn
  obtain ⟨u, hu, -, -, hmem, hctl, -⟩ :=
    advance_of_ready (s := s.withMem (s.mem.write (dataAddr a n) s.acc)) h
  have hword : u.word a n = s.acc := by
    show u.mem.read _ = _
    rw [hmem]
    exact Memory.read_write_same hm (dataAddr a n) s.acc
  have hb' : Both (u.setAcc v) t o a n := both_of_ctlKept hb fun r => (State.setAcc_ctl u v r).trans (hctl r)
  have hlast : u.HasLast := advance_hasLast hu
  obtain ⟨w, hw⟩ := advance_completes (s := (u.setAcc v).setAcc (u.word a n)) hlast
  obtain ⟨-, hwmem, hwacc, -⟩ := advance_frame hw
  exact ⟨u, w, (exec_write_of_grid hb hn).trans hu, (exec_read_of_grid hb' hn).trans hw, hwacc.trans hword,
    memKept_of_eq hwmem⟩

end Sys2Proof.Machine
end

section
/-!
PROOF. The arithmetic instructions (R147 to R150): the two parts of a product and of a quotient as R144 and R145 name them,
what each instruction writes where its checks hold, and the alarm where one fails. With it O21 to O27.
-/

namespace Sys2Proof.Machine

open Sys2Proof.Claims

/-! ### Products and quotients -/

/-- R144: the two parts make up the product. -/
theorem productLow_add_productHigh (a b : Int) : productLow a b + 10 ^ 12 * productHigh a b = a * b := by
  unfold productLow productHigh splitBase
  generalize a * b = p
  rcases lt_trichotomy p 0 with hp | rfl | hp
  · rw [Int.sign_eq_neg_one_of_neg hp]; omega
  · rfl
  · rw [Int.sign_eq_one_of_pos hp]; omega

/-- R144, D11: both parts of a product of zero or more are zero or more. -/
theorem product_parts_nonneg {a b : Int} (h : 0 ≤ a * b) : 0 ≤ productLow a b ∧ 0 ≤ productHigh a b := by
  have hsign : 0 ≤ (a * b).sign := Int.sign_nonneg_iff.2 h
  exact ⟨Int.mul_nonneg hsign (Int.natCast_nonneg _), Int.mul_nonneg hsign (Int.natCast_nonneg _)⟩

/-- R144, D11: both parts of a product of zero or less are zero or less. -/
theorem product_parts_nonpos {a b : Int} (h : a * b ≤ 0) : productLow a b ≤ 0 ∧ productHigh a b ≤ 0 := by
  have hsign : (a * b).sign ≤ 0 := Int.sign_nonpos_iff.2 h
  exact ⟨Int.mul_nonpos_of_nonpos_of_nonneg hsign (Int.natCast_nonneg _),
    Int.mul_nonpos_of_nonpos_of_nonneg hsign (Int.natCast_nonneg _)⟩

/-- R145: what is left of the dividend is the truncating remainder. -/
theorem sub_tdiv_mul (a b : Int) : a - a.tdiv b * b = a.tmod b :=
  (eq_sub_of_add_eq (Int.tmod_add_tdiv_mul a b)).symm

/-- R145, D12: the remainder of a dividend of zero or less is zero or less. -/
theorem tmod_nonpos {a : Int} (b : Int) (h : a ≤ 0) : a.tmod b ≤ 0 := by
  have hneg : 0 ≤ (-a).tmod b := Int.tmod_nonneg b (Int.neg_nonneg_of_nonpos h)
  rw [Int.neg_tmod] at hneg
  exact Int.nonpos_of_neg_nonneg hneg

/-- R145: the remainder is smaller in magnitude than the divisor. -/
theorem natAbs_tmod_lt (a : Int) {b : Int} (h : b ≠ 0) : (a.tmod b).natAbs < b.natAbs := by
  rw [Int.natAbs_tmod]
  exact Nat.mod_lt _ (Int.natAbs_pos.2 h)

/-- R145: the quotient is no larger in magnitude than the dividend. -/
theorem natAbs_tdiv_le (a b : Int) : (a.tdiv b).natAbs ≤ a.natAbs := by
  rw [Int.natAbs_tdiv]
  exact Nat.div_le_self _ _

/-! ### The four instructions on a word of the grid -/

section
variable {s : State} {t : Option TensDigit} {o : Option OnesDigit} {a n : Nat} (hb : Both s t o a n) (hn : n ≤ 9)
include hb hn

theorem exec_add_of_grid :
    exec (.add t o) s = orAlarm s (add12 s.acc (s.word a n)) fun v => advance (s.setAcc v) :=
  reading_present _ hb hn

theorem exec_sub_of_grid :
    exec (.sub t o) s = orAlarm s (sub12 s.acc (s.word a n)) fun v => advance (s.setAcc v) :=
  reading_present _ hb hn

theorem exec_mul_of_grid :
    exec (.mul t o) s = orAlarm s (mulSplit s.acc (s.word a n)) fun v => advance ((s.setAcc v.1).setSec v.2) :=
  reading_present _ hb hn

theorem exec_div_of_grid :
    exec (.div t o) s = orAlarm s (divRem s.acc (s.word a n)) fun v => advance ((s.setAcc v.1).setSec v.2) :=
  reading_present _ hb hn

end

/-- R149, R150: the frame of an instruction that writes `ACC` and `SEC` and advances. -/
theorem advance_setAcc_setSec_of_ready {s : State} {b : Pinboard} {l : Nat} (h : Ready s b l) (v w : Int) :
    ∃ u, advance ((s.setAcc v).setSec w) = .next u ∧ u.acc = v ∧ u.sec = w ∧ MemKept s u ∧ CtlKept s u ∧
      CellsKept s u ∧ u.out = s.out ∧ Advanced s u b.cur l := by
  obtain ⟨u, hu, hacc, hsec, hmem, hctl, hcells, hout, hadv⟩ := advance_of_ready (s := (s.setAcc v).setSec w) h
  exact ⟨u, hu, hacc, hsec, memKept_of_eq hmem, hctl, hcells, hout, hadv⟩

/-- Settles O21: the sum is a word, then the advance. -/
theorem addSumsIntoTheAccumulator : Obligations.AddSumsIntoTheAccumulator := by
  intro s t o a n b l h hb hn hsum
  rw [exec_add_of_grid hb hn, add12_ok.2 ⟨(inWord12_iff_natAbs_lt _).2 hsum, rfl⟩]
  exact advance_setAcc_of_ready h _

/-- Settles O22: the difference is a word, then the advance. -/
theorem subtractTakesTheWordFromTheAccumulator : Obligations.SubtractTakesTheWordFromTheAccumulator := by
  intro s t o a n b l h hb hn hdiff
  rw [exec_sub_of_grid hb hn, sub12_ok.2 ⟨(inWord12_iff_natAbs_lt _).2 hdiff, rfl⟩]
  exact advance_setAcc_of_ready h _

/-- Settles O23: the two parts of the product, then the advance. -/
theorem multiplySplitsTheProduct : Obligations.MultiplySplitsTheProduct := by
  intro s t o a n b l h hb hn hp
  rw [exec_mul_of_grid hb hn, mulSplit_ok.2 ⟨hp, rfl⟩]
  obtain ⟨u, hu, hacc, hsec, hframe⟩ :=
    advance_setAcc_setSec_of_ready h (productLow s.acc (s.word a n)) (productHigh s.acc (s.word a n))
  obtain ⟨hlow, hhigh⟩ := product_parts _ _ hp
  refine ⟨u, hu, ?_⟩
  rw [hacc, hsec]
  exact ⟨productLow_add_productHigh _ _, (inWord12_iff_natAbs_lt _).1 hlow, (inWord11_iff_natAbs_lt _).1 hhigh,
    product_parts_nonneg, product_parts_nonpos, hframe⟩

/-- Settles O24: the quotient and the remainder, then the advance. -/
theorem divideGivesQuotientAndRemainder : Obligations.DivideGivesQuotientAndRemainder := by
  intro s t o a n b l h hb hn hw hr
  have hfits : InWord11 (s.acc - s.acc.tdiv (s.word a n) * s.word a n) := by
    rw [sub_tdiv_mul]
    exact (inWord11_iff_natAbs_lt _).2 hr
  rw [exec_div_of_grid hb hn, divRem_ok.2 ⟨hw, hfits, rfl⟩, sub_tdiv_mul]
  obtain ⟨u, hu, hacc, hsec, hframe⟩ :=
    advance_setAcc_setSec_of_ready h (s.acc.tdiv (s.word a n)) (s.acc.tmod (s.word a n))
  refine ⟨u, hu, ?_⟩
  rw [hacc, hsec]
  exact ⟨(Int.tdiv_mul_add_tmod _ _).symm, natAbs_tmod_lt _ hw, Int.tmod_nonneg _, tmod_nonpos _, natAbs_tdiv_le _ _,
    hframe⟩

/-- Settles O25: each of the three range checks fails. -/
theorem resultOutOfRangeRaisesOverflow : Obligations.ResultOutOfRangeRaisesOverflow := by
  intro s t o a n hb hn
  refine ⟨fun h => ?_, fun h => ?_, fun h => ?_⟩
  · rw [exec_add_of_grid hb hn, add12_error.2 ⟨not_inWord12_of_le h, rfl⟩]
    rfl
  · rw [exec_sub_of_grid hb hn, sub12_error.2 ⟨not_inWord12_of_le h, rfl⟩]
    rfl
  · rw [exec_accToSec, narrow11_error.2 ⟨not_inWord11_of_le h, rfl⟩]
    rfl

/-- Settles O26: the high-order part does not fit. -/
theorem productFromTenToThe23RaisesOverflow : Obligations.ProductFromTenToThe23RaisesOverflow := by
  intro s t o a n hb hn h
  rw [exec_mul_of_grid hb hn, mulSplit_error.2 ⟨h, rfl⟩]
  rfl

/-- Settles O27: the divisor is checked first, then the remainder. -/
theorem divisionErrorsLeaveTheRegisters : Obligations.DivisionErrorsLeaveTheRegisters := by
  intro s t o a n hb hn
  refine ⟨fun hw => ?_, fun hw hr => ?_⟩
  · rw [exec_div_of_grid hb hn, divRem_error.2 (.inl ⟨hw, rfl⟩)]
    rfl
  · have hfits : ¬ InWord11 (s.acc - s.acc.tdiv (s.word a n) * s.word a n) := by
      rw [sub_tdiv_mul]
      exact not_inWord11_of_le hr
    rw [exec_div_of_grid hb hn, divRem_error.2 (.inr ⟨hw, hfits, rfl⟩)]
    rfl

end Sys2Proof.Machine
end

section
/-!
PROOF. Targets, self-modification and control transfer (R110, R160 to R174): what the default target names, what a written
cell and a moved cursor leave unchanged, and the instructions `A`, `U`, `C`, `H` and `S`. With it O28 to O37.
-/

namespace Sys2Proof.Machine

open Sys2Proof.Claims

/-! ### The target -/

/-- R110: the default resolution where the slot is loaded and the position exists. -/
theorem resolveTarget_of_slot {s : State} {tn on : Option Nat} {b : Pinboard} (hb : s.slot (tn.getD s.cp) = some b)
    (hq : on.getD b.cur < Config.capacity) : resolveTarget s tn on = some (tn.getD s.cp, on.getD b.cur) := by
  simp only [resolveTarget, hb, if_neg (Nat.not_le.2 hq)]

/-- R110: what a resolved target says, and the target of a loaded slot. -/
theorem resolveTarget_eq_some {s : State} {tn on : Option Nat} {p q : Nat} :
    resolveTarget s tn on = some (p, q) ↔
      p = tn.getD s.cp ∧ 1 ≤ p ∧ p ≤ 8 ∧ q < 16 ∧ ∃ cur, curAt s p = some cur ∧ q = on.getD cur := by
  constructor
  · intro h
    obtain ⟨b, hb, hp, hq, hlt⟩ := resolveTarget_some h
    obtain ⟨h1, h8⟩ := State.slot_bounds hb
    exact ⟨hp, h1, h8, hlt, b.cur, curAt_of_slot hb, hq⟩
  · rintro ⟨rfl, -, -, hlt, cur, hcur, rfl⟩
    obtain ⟨b, hb, rfl⟩ := Option.map_eq_some_iff.1 hcur
    exact resolveTarget_of_slot hb hlt

/-- Settles O28: the operand that is present, or its default, in each of the four cases. -/
theorem targetResolutionNamesPinboardAndPosition : Obligations.TargetResolutionNamesPinboardAndPosition := by
  intro s tn on p q
  cases tn <;> cases on <;> exact resolveTarget_eq_some

/-! ### A written cell -/

/-- R160: a cell of a loaded slot is written, and no other. -/
theorem cellAt_setCell {s : State} {p q : Nat} {b : Pinboard} (hb : s.slot p = some b) (hq : q < Config.capacity)
    (i : Instr) (p' q' : Nat) :
    cellAt (s.setCell p q i) p' q' = if p' = p ∧ q' = q then some i else cellAt s p' q' := by
  by_cases hp : p' = p
  · subst hp
    have hslot : (s.setCell p' q i).slot p' = some (b.withCell q i) := by
      rw [State.setCell_slot, if_pos rfl, hb]
      rfl
    rw [cellAt_of_slot hslot, cellAt_of_slot hb, Pinboard.withCell_cell b q q' i hq]
    simp
  · have hslot : (s.setCell p q i).slot p' = s.slot p' := by rw [State.setCell_slot, if_neg hp]
    simp [cellAt, hslot, hp]

/-- R160, R107: what the advance after `A` needs, as the current pinboard stands after the write. -/
theorem ready_setCell {s : State} {p q l : Nat} {b : Pinboard} {i : Instr} (hb : s.slot s.cp = some b)
    (hl : IsLast (if p = s.cp then b.withCell q i else b) l) :
    Ready (s.setCell p q i) (if p = s.cp then b.withCell q i else b) l := by
  refine ⟨?_, hl⟩
  rw [State.setCell_slot, State.setCell_cp]
  by_cases hp : p = s.cp
  · simp [hp, hb]
  · simp [hp, Ne.symm hp, hb]

/-- R27, R160: the cursor after the write is the one before it. -/
theorem cur_ite_withCell (c : Prop) [Decidable c] (b : Pinboard) (q : Nat) (i : Instr) :
    (if c then b.withCell q i else b).cur = b.cur := by
  split <;> rfl

/-- R107: an advance is the same seen from a state with the same `CP`, status and cursors. -/
theorem advanced_of_same {s m u : State} {cur l : Nat} (h : Advanced m u cur l) (hcp : m.cp = s.cp)
    (hst : m.status = s.status) (hcur : CursorsKept s m) : Advanced s u cur l := by
  obtain ⟨hucp, hbelow, hat⟩ := h
  refine ⟨hucp.trans hcp, fun hlt => ?_, fun hle => ?_⟩
  · obtain ⟨hust, hucur⟩ := hbelow hlt
    exact ⟨hust.trans hst, fun p => by rw [hucur p, hcp, hcur p]⟩
  · obtain ⟨hust, hucur⟩ := hat hle
    exact ⟨hust, fun p => (hucur p).trans (hcur p)⟩

/-! ### The five instructions on their operands -/

section
variable {s : State} {t : Option TensDigit} {o : Option OnesDigit} {tn on : Option Nat} (hs : Some1 s t o tn on)
include hs

theorem someOperand_of_some1 (k : Option Nat → Option Nat → Result) : someOperand t o s k = k tn on := by
  obtain ⟨rfl, ho, hp⟩ := hs
  exact someOperand_present k ho hp

theorem exec_transfer_of_some1 : exec (.transfer t o) s = transferTo resolveTarget s tn on :=
  someOperand_of_some1 hs _

theorem exec_condTransfer_of_some1 :
    exec (.condTransfer t o) s = if accNegative s then transferTo resolveTarget s tn on else advance s := by
  show execCondTransfer t o s = _
  unfold execCondTransfer condTransferUnder
  rw [someOperand_of_some1 hs]

/-- R160: the target is looked at first. -/
theorem exec_alter_missing (ht : resolveTarget s tn on = none) :
    exec (.alter t o) s = .next (raiseAlarm s Err.target) := by
  show execAlter t o s = _
  unfold execAlter alterUnder
  rw [someOperand_of_some1 hs, ht]

/-- R160: then the image in `ACC`. -/
theorem exec_alter_badImage {p q : Nat} {why : DecodeError} (ht : resolveTarget s tn on = some (p, q))
    (hd : decodeImage s.acc = .reject why) : exec (.alter t o) s = .next (raiseAlarm s Err.badImage) := by
  show execAlter t o s = _
  unfold execAlter alterUnder
  rw [someOperand_of_some1 hs, ht]
  simp only [hd]

/-- R160: then the one cell. -/
theorem exec_alter_of_target {p q : Nat} {i : Instr} (ht : resolveTarget s tn on = some (p, q))
    (hacc : s.acc = image i) : exec (.alter t o) s = advance (s.setCell p q i) := by
  show execAlter t o s = _
  unfold execAlter alterUnder
  rw [someOperand_of_some1 hs, ht]
  simp only [decodeImage_eq_ok.2 hacc]

end

theorem transferTo_missing {s : State} {tn on : Option Nat} (ht : resolveTarget s tn on = none) :
    transferTo resolveTarget s tn on = .next (raiseAlarm s Err.target) := by
  simp only [transferTo, ht]

theorem transferTo_target {s : State} {tn on : Option Nat} {p q : Nat} (ht : resolveTarget s tn on = some (p, q)) :
    transferTo resolveTarget s tn on = .next ((s.setCp p).setCursor p q) := by
  simp only [transferTo, ht]

theorem accNegative_of_neg {s : State} (h : s.acc < 0) : accNegative s = true := decide_eq_true h

theorem accNegative_of_nonneg {s : State} (h : 0 ≤ s.acc) : accNegative s = false := decide_eq_false (Int.not_lt.2 h)

/-! ### The self-modification -/

/-- Settles O29: the write of one cell, then the advance on the cells as they then are. -/
theorem alterWiresTheTargetCell : Obligations.AlterWiresTheTargetCell := by
  intro s t o tn on p q i b l hs ht hacc hb hl
  obtain ⟨bt, hbt, -, -, hq⟩ := resolveTarget_some ht
  obtain ⟨u, hu, huacc, hsec, hmem, hctl, hcells, hout, hadv⟩ := advance_of_ready (ready_setCell hb hl)
  rw [cur_ite_withCell] at hadv
  refine ⟨u, (exec_alter_of_target hs ht hacc).trans hu, fun p' q' => ?_, huacc, hsec, memKept_of_eq hmem, fun r => ?_,
    hout, advanced_of_same hadv rfl rfl fun r => curAt_setCell s p q r i⟩
  · rw [hcells, cellAt_setCell hbt hq]
  · rw [hctl, State.setCell_ctl]

/-- Settles O30: the target first, then an image no instruction has. -/
theorem alterChecksTargetThenImage : Obligations.AlterChecksTargetThenImage := by
  intro s t o tn on hs
  refine ⟨exec_alter_missing hs, fun ht hacc => ?_⟩
  obtain ⟨⟨p, q⟩, ht⟩ := Option.ne_none_iff_exists'.1 ht
  cases hd : decodeImage s.acc with
  | ok i => exact absurd (decodeImage_eq_ok.1 hd) (hacc i)
  | reject why => exact exec_alter_badImage hs ht hd

/-- R101, R102: the fetch finds the cell at the current cursor. -/
theorem fetch_of_cellAt {s : State} {q : Nat} {i : Instr} (hcur : curAt s s.cp = some q)
    (hcell : cellAt s s.cp q = some i) : fetch s = .ok i := by
  obtain ⟨b, hb, rfl⟩ := Option.map_eq_some_iff.1 hcur
  exact fetch_wired hb ((cellAt_of_slot hb b.cur).symm.trans hcell)

/-- R170: the frame of a transfer to a loaded slot. -/
theorem transfer_frame {s : State} {p : Nat} {b : Pinboard} (hb : s.slot p = some b) (q : Nat) :
    ∃ u, u = (s.setCp p).setCursor p q ∧ u.cp = p ∧
      (∀ p', curAt u p' = if p' = p then some q else curAt s p') ∧ u.status = s.status ∧
      u.acc = s.acc ∧ u.sec = s.sec ∧ MemKept s u ∧ CtlKept s u ∧ CellsKept s u ∧ u.out = s.out :=
  ⟨_, rfl, rfl, curAt_setCursor_of_slot (s := s.setCp p) hb q, rfl, rfl, rfl, fun _ => rfl, fun r => by simp,
    cellAt_setCursor (s.setCp p) p q, rfl⟩

/-- Settles O31: the target stays loaded over the advance, and its cell over the advance and the transfer. -/
theorem alteredCellIsFetchedNext : Obligations.AlteredCellIsFetchedNext := by
  intro s d n i b bt l hbt hacc hb hl
  have hsome : ∀ v : State, Some1 v (some (.lit d)) (some (.lit n)) (some d.val) (some n.val) :=
    fun _ => ⟨rfl, rfl, .inl rfl⟩
  have ht : resolveTarget s (some d.val) (some n.val) = some (d.val, n.val) := resolveTarget_of_slot hbt n.isLt
  obtain ⟨u, hu, -, -, -, -, hcells, -⟩ := advance_of_ready (ready_setCell hb hl)
  have halter := (exec_alter_of_target (hsome s) ht hacc).trans hu
  have hloaded : (u.slot d.val).isSome := by rw [(exec_answers halter).loaded_kept, hbt]; rfl
  obtain ⟨bu, hbu⟩ := Option.isSome_iff_exists.1 hloaded
  have htu : resolveTarget u (some d.val) (some n.val) = some (d.val, n.val) := resolveTarget_of_slot hbu n.isLt
  obtain ⟨w, hw, hcp, hcur, -, -, -, -, -, hwcells, -⟩ := transfer_frame hbu n.val
  refine ⟨u, w, halter, ?_, hcp, fetch_of_cellAt (q := n.val) ?_ ?_⟩
  · rw [exec_transfer_of_some1 (hsome u), transferTo_target htu, hw]
  · rw [hcp, hcur, if_pos rfl]
  · rw [hcp, hwcells, hcells, cellAt_setCell hbt n.isLt, if_pos ⟨rfl, rfl⟩]

/-! ### The transfers -/

/-- Settles O32: the frame of a transfer to the resolved target. -/
theorem transferSetsOnlyThePc : Obligations.TransferSetsOnlyThePc := by
  intro s t o tn on p q hs ht
  obtain ⟨b, hb, -⟩ := resolveTarget_some ht
  obtain ⟨u, hu, hframe⟩ := transfer_frame hb q
  exact ⟨u, by rw [exec_transfer_of_some1 hs, transferTo_target ht, hu], hframe⟩

/-- Settles O33: taken, `C` is the same transfer. -/
theorem conditionalTransferTakenWhenNegative : Obligations.ConditionalTransferTakenWhenNegative := by
  intro s t o tn on p q hs hneg ht
  obtain ⟨u, hu, hframe⟩ := transferSetsOnlyThePc s t o tn on p q hs ht
  refine ⟨u, ?_, hu, hframe⟩
  rw [exec_condTransfer_of_some1 hs, if_pos (accNegative_of_neg hneg), ← exec_transfer_of_some1 hs, hu]

/-- Settles O34: not taken, `C` advances. -/
theorem conditionalTransferFallsThrough : Obligations.ConditionalTransferFallsThrough := by
  intro s t o tn on b l hs hacc h
  obtain ⟨u, hu, huacc, hsec, hmem, hctl, hcells, hout, hadv⟩ := advance_of_ready h
  refine ⟨u, ?_, huacc, hsec, memKept_of_eq hmem, hctl, hcells, hout, hadv⟩
  rw [exec_condTransfer_of_some1 hs, accNegative_of_nonneg hacc]
  exact hu

/-- Settles O35: a transfer, and a taken `C`, to no target. -/
theorem missingTransferTargetRaisesInvalidMemory : Obligations.MissingTransferTargetRaisesInvalidMemory := by
  intro s t o tn on hs ht
  refine ⟨(exec_transfer_of_some1 hs).trans (transferTo_missing ht), fun hneg => ?_⟩
  rw [exec_condTransfer_of_some1 hs, if_pos (accNegative_of_neg hneg)]
  exact transferTo_missing ht

/-! ### The moves of the current cursor -/

/-- R173, R174: the frame of a moved cursor. -/
theorem setCursor_frame {s : State} {p : Nat} {b : Pinboard} (hb : s.slot p = some b) (q : Nat) :
    (∀ p', curAt (s.setCursor p q) p' = if p' = p then some q else curAt s p') ∧
      MemKept s (s.setCursor p q) ∧ CtlKept s (s.setCursor p q) ∧ CellsKept s (s.setCursor p q) :=
  ⟨curAt_setCursor_of_slot hb q, fun _ => rfl, State.setCursor_ctl s p q, cellAt_setCursor s p q⟩

theorem exec_home_of_slot {s : State} {b : Pinboard} (hb : s.slot s.cp = some b) :
    exec (.home none none) s = .next (s.setCursor s.cp 0) := by
  show execHome none none s = _
  unfold execHome
  rw [noOperands_absent, hb]

/-- Settles O36: the move to position 0, and the operand `H` does not take. -/
theorem homeResetsTheCursor : Obligations.HomeResetsTheCursor := by
  refine ⟨fun s b hb => ?_, fun s t o h h1 h2 => exec_uncovered_of_operand (i := .home t o) s rfl h h1 h2, by decide⟩
  obtain ⟨hcur, hmem, hctl, hcells⟩ := setCursor_frame hb 0
  exact ⟨_, exec_home_of_slot hb, rfl, hcur, rfl, rfl, rfl, hmem, hctl, hcells, rfl⟩

/-- R174: `S` on a resolved digit. -/
theorem exec_stepBy_of_last {s : State} {t : Option TensDigit} {n l : Nat} {b : Pinboard} (hb : s.slot s.cp = some b)
    (hl : b.last? = some l) (ht : resolveTens s t = some n) :
    exec (.stepBy t none) s =
      if l < b.cur + n then .next (s.setStatus .halt) else .next (s.setCursor s.cp (b.cur + n)) := by
  show execStepBy t none s = _
  unfold execStepBy
  rw [tensOperand_present _ ht, hb]
  simp only [hl]

/-- Settles O37: the halt past the last wired position, and the move up to it. -/
theorem stepMovesTheCursorByItsDigit : Obligations.StepMovesTheCursorByItsDigit := by
  intro s t n b l h ht
  obtain ⟨hb, hlast⟩ := h
  have hexec := exec_stepBy_of_last hb (last?_of_isLast hlast) ht
  by_cases hpast : l < b.cur + n
  · rw [if_pos hpast] at hexec
    exact ⟨_, hexec, rfl, fun hle => absurd hle (Nat.not_le.2 hpast), fun _ => ⟨rfl, fun _ => rfl⟩, rfl, rfl,
      fun _ => rfl, State.setStatus_ctl s .halt, fun _ _ => rfl, rfl⟩
  · rw [if_neg hpast] at hexec
    obtain ⟨hcur, hmem, hctl, hcells⟩ := setCursor_frame hb (b.cur + n)
    exact ⟨_, hexec, rfl, fun _ => ⟨rfl, hcur⟩, fun hlt => absurd hlt hpast, rfl, rfl, hmem, hctl, hcells, rfl⟩

end Sys2Proof.Machine
end

section
/-!
PROOF. No instruction reads `SEC` (R22): two runs of each operation from states that differ in `SEC` alone. With it O42.
-/

namespace Sys2Proof.Machine

open Sys2Proof.Claims

@[simp] theorem resolveTens_setSec (s : State) (v : Int) (t : Option TensDigit) :
    resolveTens (s.setSec v) t = resolveTens s t := rfl
@[simp] theorem resolveOnes_setSec (s : State) (v : Int) (o : Option OnesDigit) :
    resolveOnes (s.setSec v) o = resolveOnes s o := rfl
@[simp] theorem resolveTarget_setSec (s : State) (v : Int) (tn on : Option Nat) :
    resolveTarget (s.setSec v) tn on = resolveTarget s tn on := rfl
@[simp] theorem accNegative_setSec (s : State) (v : Int) : accNegative (s.setSec v) = accNegative s := rfl
@[simp] theorem memRead_setSec (s : State) (v : Int) (a n : Nat) : memRead (s.setSec v) a n = memRead s a n := rfl
@[simp] theorem fetch_setSec (s : State) (v : Int) : fetch (s.setSec v) = fetch s := rfl

theorem sameButSec_next (u : State) (v : Int) : SameButSec (.next u) (.next (u.setSec v)) := ⟨v, rfl⟩

theorem sameButSec_alarm (s : State) (v : Int) (e : Err) :
    SameButSec (.next (raiseAlarm s e)) (.next (raiseAlarm (s.setSec v) e)) := ⟨v, rfl⟩

theorem sameButSec_refl (r : Result) : SameButSec r r := by
  cases r with
  | next u => exact ⟨u.sec, rfl⟩
  | fault | refused => rfl

section
variable {t : Option TensDigit} {o : Option OnesDigit} (s : State) (v : Int)

/-! ### The shared operations -/

theorem orAlarm_sameButSec {α : Type} (r : Except Err α) {k k' : α → Result} (h : ∀ a, SameButSec (k a) (k' a)) :
    SameButSec (orAlarm s r k) (orAlarm (s.setSec v) r k') := by
  cases r with
  | error e => exact sameButSec_alarm s v e
  | ok a => exact h a

theorem haltOrMove_sameButSec (c : Prop) [Decidable c] (q : Nat) :
    SameButSec (if c then .next (s.setStatus .halt) else .next (s.setCursor s.cp q))
      (if c then .next ((s.setSec v).setStatus .halt) else .next ((s.setSec v).setCursor s.cp q)) := by
  split
  · exact sameButSec_next (s.setStatus .halt) v
  · exact sameButSec_next (s.setCursor s.cp q) v

theorem advance_sameButSec : SameButSec (advance s) (advance (s.setSec v)) := by
  simp only [advance, State.setSec_slot, State.setSec_cp]
  cases s.slot s.cp with
  | none => rfl
  | some b =>
    dsimp only
    cases b.last? with
    | none => rfl
    | some l => exact haltOrMove_sameButSec s v (l ≤ b.cur) (b.cur + 1)

theorem transferTo_sameButSec (tn on : Option Nat) :
    SameButSec (transferTo resolveTarget s tn on) (transferTo resolveTarget (s.setSec v) tn on) := by
  simp only [transferTo, resolveTarget_setSec]
  cases resolveTarget s tn on with
  | none => exact sameButSec_alarm s v Err.target
  | some pq => exact sameButSec_next ((s.setCp pq.1).setCursor pq.1 pq.2) v

/-! ### The operand shapes -/

theorem withOperands_sameButSec {k k' : Option Nat → Option Nat → Result}
    (h : ∀ tn on, SameButSec (k tn on) (k' tn on)) :
    SameButSec (withOperands t o s k) (withOperands t o (s.setSec v) k') := by
  simp only [withOperands, resolveOnes_setSec, resolveTens_setSec]
  cases resolveOnes s o with
  | error r => rfl
  | ok on => exact h _ on

theorem noOperands_sameButSec {k k' : Result} (h : SameButSec k k') :
    SameButSec (noOperands t o s k) (noOperands t o (s.setSec v) k') :=
  withOperands_sameButSec s v fun tn on =>
    match tn, on with
    | none, none => h
    | none, some _ | some _, _ => sameButSec_alarm s v Err.uncovered

theorem bothOperands_sameButSec {k k' : Nat → Nat → Result} (h : ∀ a n, SameButSec (k a n) (k' a n)) :
    SameButSec (bothOperands t o s k) (bothOperands t o (s.setSec v) k') :=
  withOperands_sameButSec s v fun tn on =>
    match tn, on with
    | some a, some n => h a n
    | none, _ | some _, none => sameButSec_alarm s v Err.uncovered

theorem someOperand_sameButSec {k k' : Option Nat → Option Nat → Result}
    (h : ∀ tn on, SameButSec (k tn on) (k' tn on)) :
    SameButSec (someOperand t o s k) (someOperand t o (s.setSec v) k') :=
  withOperands_sameButSec s v fun tn on =>
    match tn, on with
    | none, none => sameButSec_alarm s v Err.uncovered
    | none, some n => h none (some n)
    | some a, on => h (some a) on

theorem tensOperand_sameButSec {k k' : Nat → Result} (h : ∀ n, SameButSec (k n) (k' n)) :
    SameButSec (tensOperand t o s k) (tensOperand t o (s.setSec v) k') :=
  withOperands_sameButSec s v fun tn on =>
    match tn, on with
    | some n, none => h n
    | none, _ | some _, some _ => sameButSec_alarm s v Err.uncovered

theorem reading_sameButSec {k k' : Int → Result} (h : ∀ w, SameButSec (k w) (k' w)) :
    SameButSec (bothOperands t o s fun a n => orAlarm s (memRead s a n) k)
      (bothOperands t o (s.setSec v) fun a n => orAlarm (s.setSec v) (memRead (s.setSec v) a n) k') :=
  bothOperands_sameButSec s v fun a n => orAlarm_sameButSec s v (memRead s a n) h

/-! ### The instructions -/

theorem execWrite_sameButSec : SameButSec (execWrite t o s) (execWrite t o (s.setSec v)) := by
  refine bothOperands_sameButSec s v fun a n => ?_
  unfold memWrite
  split
  · exact sameButSec_alarm s v Err.cell
  · exact advance_sameButSec (s.withMem (s.mem.write (dataAddr a n) s.acc)) v

theorem execAlter_sameButSec : SameButSec (execAlter t o s) (execAlter t o (s.setSec v)) := by
  unfold execAlter alterUnder
  refine someOperand_sameButSec s v fun tn on => ?_
  simp only [resolveTarget_setSec, State.setSec_acc]
  cases resolveTarget s tn on with
  | none => exact sameButSec_alarm s v Err.target
  | some pq =>
    cases decodeImage s.acc with
    | reject _ => exact sameButSec_alarm s v Err.badImage
    | ok i => exact advance_sameButSec (s.setCell pq.1 pq.2 i) v

theorem execCondTransfer_sameButSec : SameButSec (execCondTransfer t o s) (execCondTransfer t o (s.setSec v)) := by
  unfold execCondTransfer condTransferUnder
  refine someOperand_sameButSec s v fun tn on => ?_
  rw [accNegative_setSec]
  split
  · exact transferTo_sameButSec s v tn on
  · exact advance_sameButSec s v

theorem execHome_sameButSec : SameButSec (execHome t o s) (execHome t o (s.setSec v)) := by
  refine noOperands_sameButSec s v ?_
  simp only [State.setSec_slot, State.setSec_cp]
  cases s.slot s.cp with
  | none => rfl
  | some b => exact sameButSec_next (s.setCursor s.cp 0) v

theorem execStepBy_sameButSec : SameButSec (execStepBy t o s) (execStepBy t o (s.setSec v)) := by
  refine tensOperand_sameButSec s v fun n => ?_
  simp only [State.setSec_slot, State.setSec_cp]
  cases s.slot s.cp with
  | none => rfl
  | some b =>
    dsimp only
    cases b.last? with
    | none => rfl
    | some l => exact haltOrMove_sameButSec s v (l < b.cur + n) (b.cur + n)

/-- R22: each instruction; the three that write `SEC` reach the very same state before they advance. -/
theorem exec_sameButSec (i : Instr) : SameButSec (exec i s) (exec i (s.setSec v)) := by
  cases i with
  | keyboard => exact noOperands_sameButSec s v (sameButSec_next (s.setStatus .keyboard) v)
  | write => exact execWrite_sameButSec s v
  | read => exact reading_sameButSec s v fun w => advance_sameButSec (s.setAcc w) v
  | accToSec =>
    exact noOperands_sameButSec s v (orAlarm_sameButSec s v (narrow11 s.acc) fun w => sameButSec_refl (advance (s.setSec w)))
  | print => exact noOperands_sameButSec s v (advance_sameButSec (s.emit (.print s.acc)) v)
  | add =>
    exact reading_sameButSec s v fun w =>
      orAlarm_sameButSec s v (add12 s.acc w) fun r => advance_sameButSec (s.setAcc r) v
  | sub =>
    exact reading_sameButSec s v fun w =>
      orAlarm_sameButSec s v (sub12 s.acc w) fun r => advance_sameButSec (s.setAcc r) v
  | mul =>
    exact reading_sameButSec s v fun w =>
      orAlarm_sameButSec s v (mulSplit s.acc w) fun r => sameButSec_refl (advance ((s.setAcc r.1).setSec r.2))
  | div =>
    exact reading_sameButSec s v fun w =>
      orAlarm_sameButSec s v (divRem s.acc w) fun r => sameButSec_refl (advance ((s.setAcc r.1).setSec r.2))
  | alter => exact execAlter_sameButSec s v
  | transfer => exact someOperand_sameButSec s v (transferTo_sameButSec s v)
  | condTransfer => exact execCondTransfer_sameButSec s v
  | home => exact execHome_sameButSec s v
  | stepBy => exact execStepBy_sameButSec s v

/-- R22: neither the status nor the fetch looks at `SEC`. -/
theorem step_sameButSec : SameButSec (step s) (step (s.setSec v)) := by
  by_cases hs : s.status = .cont
  · simp only [step, stepUsing, State.setSec_status, hs, fetch_setSec]
    exact orAlarm_sameButSec s v (fetch s) fun i => exec_sameButSec s v i
  · rw [step_idle hs, step_idle (s := s.setSec v) hs]
    exact sameButSec_next s v

end

/-- Settles O42: every instruction, and the step around it. -/
theorem secondaryAccumulatorIsNeverRead : Obligations.SecondaryAccumulatorIsNeverRead :=
  ⟨fun i s v => exec_sameButSec s v i, step_sameButSec⟩

end Sys2Proof.Machine
end

section
/-!
PROOF. The host's loads and preloads (R221, R222), accepted and refused. With it O54, O55 and O56.
-/

namespace Sys2Proof.Machine

open Sys2Proof.Claims

/-! ### Pinboards -/

/-- R33: a slot number is what R221 accepts. -/
theorem isSlotNo_iff (p : Nat) : isSlotNo p ↔ 1 ≤ p ∧ p ≤ 8 := Iff.rfl

theorem setSlot_slot_same (s : State) {p : Nat} (hp : isSlotNo p) (b : Option Pinboard) : (s.setSlot p b).slot p = b := by
  rw [State.setSlot_slot, if_pos ⟨rfl, hp⟩]

theorem setSlot_slot_ne (s : State) {p r : Nat} (h : r ≠ p) (b : Option Pinboard) :
    (s.setSlot p b).slot r = s.slot r := by
  rw [State.setSlot_slot, if_neg fun hr => h hr.1]

/-- R221: the accepted load, with the pinboard it puts. -/
theorem loadPinboard_accepted {s : State} {p : Nat} {cells : List (Option Instr)} (hs : s.status = .cont)
    (hp : isSlotNo p) (hlen : cells.length = 16) :
    ∃ b, loadPinboard p cells s = (s.setSlot p (some b), .ok) ∧ b.cur = 0 ∧ ∀ q, b.cell q = (cells[q]?).join := by
  refine ⟨⟨⟨cells.toArray, by simpa using hlen⟩, 0⟩, ?_, rfl, fun q => ?_⟩
  · exact (inContinue_cont hs _).trans (dif_pos ⟨hp, hlen⟩)
  · simp [Pinboard.cell]

theorem loadPinboard_refused {s : State} {p : Nat} {cells : List (Option Instr)}
    (h : s.status ≠ .cont ∨ ¬ isSlotNo p ∨ cells.length ≠ 16) : loadPinboard p cells s = (s, .notAccepted) := by
  by_cases hs : s.status = .cont
  · refine (inContinue_cont hs _).trans (dif_neg fun hok => ?_)
    rcases h with h | h | h
    · exact h hs
    · exact h hok.1
    · exact h hok.2
  · exact inContinue_idle hs _

theorem removePinboard_accepted {s : State} {p : Nat} (hs : s.status = .cont) (hp : isSlotNo p) :
    removePinboard p s = (s.setSlot p none, .ok) :=
  (inContinue_cont hs _).trans (if_pos hp)

theorem removePinboard_refused {s : State} {p : Nat} (h : s.status ≠ .cont ∨ ¬ isSlotNo p) :
    removePinboard p s = (s, .notAccepted) := by
  by_cases hs : s.status = .cont
  · exact (inContinue_cont hs _).trans (if_neg (h.resolve_left (not_not_intro hs)))
  · exact inContinue_idle hs _

/-- Settles O54: the accepted load and removal as writes of one slot, and the refusals. -/
theorem loadReplacesTheSlotAsAWhole : Obligations.LoadReplacesTheSlotAsAWhole := by
  intro s p cells
  refine ⟨fun hs h1 h8 hlen => ?_, fun hs h1 h8 => ?_, fun h => loadPinboard_refused (h.imp_right fun h => ?_),
    fun h => removePinboard_refused (h.imp_right fun h => ?_)⟩
  · obtain ⟨b, hload, hcur, hcell⟩ := loadPinboard_accepted hs ⟨h1, h8⟩ hlen
    have hslot : (s.setSlot p (some b)).slot p = some b := setSlot_slot_same s ⟨h1, h8⟩ _
    exact ⟨_, hload, by rw [curAt_of_slot hslot, hcur], fun q => (cellAt_of_slot hslot q).trans (hcell q),
      fun p' hp' => setSlot_slot_ne s hp' _, rfl⟩
  · exact ⟨_, removePinboard_accepted hs ⟨h1, h8⟩, setSlot_slot_same s ⟨h1, h8⟩ none,
      fun p' hp' => setSlot_slot_ne s hp' _, rfl⟩
  · rw [isSlotNo_iff]
    omega
  · rw [isSlotNo_iff]
    omega

/-! ### Preloads -/

/-- R222: `SetCtl` with a digit. -/
theorem setCtlTx_accepted {s : State} {r : CtlReg} {d : Nat} (hs : s.status = .cont) (hd : d < 10) :
    setCtlTx r d s = (s.setCtl r ⟨d, hd⟩, .ok) :=
  (inContinue_cont hs _).trans (dif_pos hd)

/-- R222: `SetMem` inside the grid is the one write, or refused by the word's range. -/
theorem setMemTx_grid {s : State} {t o : Nat} (v : Int) (hs : s.status = .cont) (ht : t ≤ 9) (ho : o ≤ 9) :
    setMemTx t o v s =
      if InWord12 v then (s.withMem (s.mem.write (dataAddr t o) v), .ok) else (s, .outOfRange) :=
  (inContinue_cont hs _).trans (if_pos ⟨Nat.lt_succ_of_le ht, Nat.lt_succ_of_le ho⟩)

theorem setMemTx_outside {s : State} {t o : Nat} (v : Int) (hs : s.status = .cont) (h : 9 < t ∨ 9 < o) :
    setMemTx t o v s = (s, .notAccepted) := by
  refine (inContinue_cont hs _).trans (if_neg fun hto => ?_)
  unfold Config.memTens Config.memOnes at hto
  omega

/-- Settles O55: each accepted preload is its one write. -/
theorem preloadsChangeOneElement : Obligations.PreloadsChangeOneElement := by
  intro s hs
  refine ⟨fun v hv => ?_, fun v hv => ?_, fun r d hd => ?_, fun t o v hm ht ho hv => ?_, fun p h1 h8 => ?_⟩
  · exact (inContinue_cont hs _).trans (if_pos ((inWord12_iff_natAbs_lt v).2 hv))
  · exact (inContinue_cont hs _).trans (if_pos ((inWord11_iff_natAbs_lt v).2 hv))
  · refine ⟨_, setCtlTx_accepted hs (Nat.lt_succ_of_le hd), ?_, fun r' hr' => ?_, ?_⟩
    · rw [State.setCtl_ctl, if_pos rfl]
    · rw [State.setCtl_ctl, if_neg hr']
    · cases r <;> rfl
  · exact ⟨_, (setMemTx_grid v hs ht ho).trans (if_pos ((inWord12_iff_natAbs_lt v).2 hv)),
      Memory.read_write_same hm _ v, fun c hc => Memory.read_write_other s.mem _ c v hc, rfl⟩
  · exact (inContinue_cont hs _).trans (if_pos ⟨h1, h8⟩)

/-- R222: outside `Continue` no preload is accepted, whatever its arguments are. -/
theorem preload_idle {s : State} (h : s.status ≠ .cont) {r : CtlReg} {d t o p : Nat} {v : Int} {tx : Transaction}
    (htx : tx ∈ [Transaction.setAcc v, .setSec v, .setCtl r d, .setMem t o v, .selectPinboard p]) :
    transact tx s = (s, .notAccepted) := by
  cases tx with
  | setAcc | setSec | setCtl | setMem | selectPinboard => exact inContinue_idle h _
  | _ => simp at htx

/-- Settles O56: the status first, then the arguments, then the range. -/
theorem refusedPreloadsChangeNothing : Obligations.RefusedPreloadsChangeNothing := by
  intro s r d t o p v
  refine ⟨fun hs tx htx => preload_idle hs htx, fun hs hv => ?_, fun hs hv => ?_, fun hs hv ht ho => ?_,
    fun hs h => setMemTx_outside v hs h, fun hs hd => ?_, fun hs hp => ?_⟩
  · exact (inContinue_cont hs _).trans (if_neg (not_inWord12_of_le hv))
  · exact (inContinue_cont hs _).trans (if_neg (not_inWord11_of_le hv))
  · exact (setMemTx_grid v hs ht ho).trans (if_neg (not_inWord12_of_le hv))
  · exact (inContinue_cont hs _).trans (dif_neg (Nat.not_lt.2 hd))
  · refine (inContinue_cont hs _).trans (if_neg ?_)
    rw [isSlotNo_iff]
    omega

end Sys2Proof.Machine
end

section
/-!
PROOF. The placing of a word at pc (assumption log 12): the whole state after it, slot by slot. With it O2.
-/

namespace Sys2Proof.Machine

open Sys2Proof.Claims

/-- The slots with an instruction placed: the current one, made ready, with the cell at its cursor wired. -/
theorem placeAtPc_makeReady_slot (s : State) (i : Instr) (r : Nat) :
    (placeAtPc (makeReady s) (some i)).slot r =
      if r = (makeReady s).cp then
        some ((readyBoard s (makeReady s).cp).withCell (readyBoard s (makeReady s).cp).cur i)
      else s.slot r := by
  obtain ⟨-, -, hslot, -⟩ := makeReady_spec s
  rw [placeAtPc_slot, hslot, hslot, if_pos rfl]
  split <;> rfl

/-- R101, R27: a loaded pinboard keeps its cells, and its cursor where that is a position. -/
theorem readyBoard_of_slot {s : State} {p : Nat} {b : Pinboard} (h : s.slot p = some b) :
    (readyBoard s p).cur = (if b.cur < Config.capacity then b.cur else 0) ∧
      ∀ q, (readyBoard s p).cell q = b.cell q := by
  simp only [readyBoard, h]
  split
  · exact ⟨rfl, fun _ => rfl⟩
  · exact ⟨rfl, Pinboard.withCur_cell b 0⟩

/-- R33: an empty slot gets a pinboard with no cell wired. -/
theorem readyBoard_of_empty {s : State} {p : Nat} (h : s.slot p = none) : readyBoard s p = Pinboard.blank := by
  simp only [readyBoard, h]

theorem withFetchWord_of_decode {s : State} {nbits w : Nat} {i : Instr} (h : decodeTableWord nbits w = some i) :
    s.withFetchWord nbits w = placeAtPc (makeReady s) (some i) := by
  simp only [State.withFetchWord, placeWord, h]

/-- Settles O2: every element of the state after the placing, and the fetch that follows. -/
theorem placedWordIsRunByTheNextStep : Obligations.PlacedWordIsRunByTheNextStep := by
  intro s nbits w i hw
  obtain ⟨u, hu⟩ : ∃ u, u = placeAtPc (makeReady s) (some i) := ⟨_, rfl⟩
  obtain ⟨hst, hcp, -, hacc, hsec, hmem, hctl, hout⟩ := makeReady_spec s
  have hucp : u.cp = (makeReady s).cp := by rw [hu]; rfl
  have hust : u.status = .cont := by rw [hu]; exact hst
  obtain ⟨b, hb⟩ : ∃ b, b = readyBoard s u.cp := ⟨_, rfl⟩
  have hlt : b.cur < Config.capacity := hb ▸ readyBoard_cur_lt s u.cp
  have hslot : ∀ r, u.slot r = if r = u.cp then some (b.withCell b.cur i) else s.slot r := by
    intro r
    rw [hb, hucp, hu]
    exact placeAtPc_makeReady_slot s i r
  have hcur : u.slot u.cp = some (b.withCell b.cur i) := by rw [hslot, if_pos rfl]
  have hcurAt : curAt u u.cp = some b.cur := by rw [curAt_of_slot hcur, Pinboard.withCell_cur]
  have hcellAt : ∀ q, cellAt u u.cp q = if q = b.cur then some i else b.cell q := fun q =>
    (cellAt_of_slot hcur q).trans (Pinboard.withCell_cell b b.cur q i hlt)
  have hfetch : fetch u = .ok i := fetch_of_cellAt hcurAt (by rw [hcellAt, if_pos rfl])
  refine ⟨u, (withFetchWord_of_decode hw).trans hu.symm, hust, hfetch, stepUsing_run hust hfetch, ?_, ?_, ?_, ?_, ?_,
    hucp.trans hcp, fun p hp => ?_, fun b0 hb0 => ?_, fun hnone => ?_⟩
  · rw [hu]; exact hacc
  · rw [hu]; exact hsec
  · rw [hu]; exact hmem
  · rw [hu]; exact hctl
  · rw [hu]; exact hout
  · rw [hslot, if_neg hp]
  · obtain ⟨hc, hcells⟩ := readyBoard_of_slot hb0
    rw [← hb] at hc hcells
    refine ⟨by rw [hcurAt, hc], fun q => ?_⟩
    rw [hcellAt, hcurAt, hcells]
    simp [eq_comm]
  · have hblank : b = Pinboard.blank := hb.trans (readyBoard_of_empty hnone)
    refine ⟨by rw [hcurAt, hblank, Pinboard.blank_cur], fun q => ?_⟩
    rw [hcellAt, hblank, Pinboard.blank_cur, Pinboard.blank_cell]

end Sys2Proof.Machine
end
